-- ==== Sys2Proof/Word.lean ====
section
/-! DEFINITION. The machine's words: bytes, 32-bit words, the two encoding words and the four-word register files. -/

namespace Sys2Proof

/-- A `u8` of 00_scope.md R10. -/
abbrev Byte := BitVec 8

/-- A `u32` of 00_scope.md R10; `+` on it is addition modulo `2^32` (R11). -/
abbrev Word := BitVec 32

/-- The word index of the host register window (20_memory.md R51). -/
abbrev Widx := BitVec 6

/-- A host transaction `HT`, 39 bits: bit 38 `WE`, bits 37:32 `WIDX`, bits 31:0 `WDATA` (30_encoding.md R71). -/
abbrev HtWord := BitVec 39

/-- A round-engine control word `RCW`, 8 bits (30_encoding.md R79). -/
abbrev RcwWord := BitVec 8

/-- A file of four `u32` registers named as the spec names them: `ST[0..3]` is A, B, C, D (10_state.md R21) and
`WK[0..3]` is a, b, c, d (R23). -/
structure Quad where
  a : Word
  b : Word
  c : Word
  d : Word
deriving DecidableEq, Repr

/-- The name of one register of a `Quad`; index 0 is `a`, 3 is `d` (10_state.md R21, R23). -/
inductive QReg where
  | a
  | b
  | c
  | d
deriving DecidableEq, Repr

end Sys2Proof
end

