-- ==== Sys2Proof/Machine/Tables.lean ====
section
/-! DEFINITION. The block's constants: the initial value, the length limit, the rotation amounts, the additive constants and
the message schedule. No access, micro-operation or reset writes them (10_state.md R30, 20_memory.md R54). -/

namespace Sys2Proof.Machine

/-- `IV` (10_state.md R22). -/
def iv : Quad := ⟨0x67452301#32, 0xefcdab89#32, 0x98badcfe#32, 0x10325476#32⟩

/-- `MAXLEN`, the greatest message length in bytes (00_scope.md R7). -/
def maxLen : Nat := 2 ^ 61 - 1

/-- The round of step `i`: `q = i[5:4]` (41_compression.md R122). -/
def roundOf (i : BitVec 6) : BitVec 2 := i.extractLsb' 4 2

/-- The role select of step `i`: `r = i[1:0]` (41_compression.md R130). -/
def roleSelect (i : BitVec 6) : BitVec 2 := i.extractLsb' 0 2

/-- `SR[q]`, the rotation amounts of one round (41_compression.md R128; rounds 2 to 4 follow 90_conflicts.md C3). -/
def rotRow (q : BitVec 2) : Vector Nat 4 :=
  match q.toNat with
  | 0 => #v[7, 12, 17, 22]
  | 1 => #v[5, 9, 14, 20]
  | 2 => #v[4, 11, 16, 23]
  | _ => #v[6, 10, 15, 21]

/-- `S[i]` (41_compression.md R128). -/
def rotAmount (i : BitVec 6) : Nat := (rotRow (roundOf i))[(roleSelect i).toNat]'(roleSelect i).isLt

/-- `K[16q .. 16q+15]` (41_compression.md R129). -/
def addRow (q : BitVec 2) : Vector Word 16 :=
  match q.toNat with
  | 0 =>
    #v[0xd76aa478#32, 0xe8c7b756#32, 0x242070db#32, 0xc1bdceee#32,
     0xf57c0faf#32, 0x4787c62a#32, 0xa8304613#32, 0xfd469501#32,
     0x698098d8#32, 0x8b44f7af#32, 0xffff5bb1#32, 0x895cd7be#32,
     0x6b901122#32, 0xfd987193#32, 0xa679438e#32, 0x49b40821#32]
  | 1 =>
    #v[0xf61e2562#32, 0xc040b340#32, 0x265e5a51#32, 0xe9b6c7aa#32,
     0xd62f105d#32, 0x02441453#32, 0xd8a1e681#32, 0xe7d3fbc8#32,
     0x21e1cde6#32, 0xc33707d6#32, 0xf4d50d87#32, 0x455a14ed#32,
     0xa9e3e905#32, 0xfcefa3f8#32, 0x676f02d9#32, 0x8d2a4c8a#32]
  | 2 =>
    #v[0xfffa3942#32, 0x8771f681#32, 0x6d9d6122#32, 0xfde5380c#32,
     0xa4beea44#32, 0x4bdecfa9#32, 0xf6bb4b60#32, 0xbebfbc70#32,
     0x289b7ec6#32, 0xeaa127fa#32, 0xd4ef3085#32, 0x04881d05#32,
     0xd9d4d039#32, 0xe6db99e5#32, 0x1fa27cf8#32, 0xc4ac5665#32]
  | _ =>
    #v[0xf4292244#32, 0x432aff97#32, 0xab9423a7#32, 0xfc93a039#32,
     0x655b59c3#32, 0x8f0ccc92#32, 0xffeff47d#32, 0x85845dd1#32,
     0x6fa87e4f#32, 0xfe2ce6e0#32, 0xa3014314#32, 0x4e0811a1#32,
     0xf7537e82#32, 0xbd3af235#32, 0x2ad7d2bb#32, 0xeb86d391#32]

/-- `K[i]` (41_compression.md R129). -/
def addConst (i : BitVec 6) : Word := (addRow (roundOf i))[(i.extractLsb' 0 4).toNat]'(i.extractLsb' 0 4).isLt

/-- `g(i)`, the index of the message word step `i` reads (41_compression.md R127). -/
def msgIndex (i : BitVec 6) : Fin 16 :=
  match (roundOf i).toNat with
  | 0 => ⟨i.toNat % 16, Nat.mod_lt _ (by decide)⟩
  | 1 => ⟨(5 * i.toNat + 1) % 16, Nat.mod_lt _ (by decide)⟩
  | 2 => ⟨(3 * i.toNat + 5) % 16, Nat.mod_lt _ (by decide)⟩
  | _ => ⟨(7 * i.toNat) % 16, Nat.mod_lt _ (by decide)⟩

end Sys2Proof.Machine
end

