-- ==== Sys2Proof/Machine/State.lean ====
section
/-! DEFINITION. The machine's state, its reset, and the reasons a step can stop. -/

namespace Sys2Proof.Machine

/-- The driver's phase `PHASE` (10_state.md R27). -/
inductive Phase where
  | idle
  | absorb
  | done
  | failed
deriving DecidableEq, Repr

/-- The round-engine sequencer `ESEQ` (10_state.md R29). -/
inductive Eseq where
  | idle
  | unpack
  | step (i : BitVec 6)
  | accum
deriving DecidableEq, Repr

/-- What can arrive at the block from outside. -/
inductive Input where
  /-- The reset input (70_reset_and_hazards.md R250). -/
  | reset
  /-- One host transaction (30_encoding.md R71). -/
  | access (v : HtWord)
  /-- A control word put on the datapath by name. No host can do this: it exposes the decoding of `RCW`
  (30_encoding.md R80, R82; assumption 4: DESIGN CHOICE, safe). -/
  | control (w : RcwWord)
deriving DecidableEq, Repr

/-- The block buffer `BUF` as a list of (index, byte) cells: indices strictly rising and below 64, and no cell that
holds what an unlisted index reads as (`Memory.wf`). -/
abbrev Memory := List Host.Cell

/-- Everything 10_state.md R20 gives the block (`st` to `eseq`), and three fields of the model's own: `inputs`, `rdata`
and `compressions`. -/
structure State where
  /-- `ST[0..3]`, the chaining state (10_state.md R21). -/
  st : Quad
  /-- `WK[0..3]`, the working registers (R23). -/
  wk : Quad
  /-- `MW[0..15]`, the unpacked message words (R24). -/
  mw : Vector Word 16
  /-- `BUF[0..63]`, the block buffer (R25). -/
  buf : Memory
  /-- `CNT`, the number of message bytes absorbed since INIT (R26). -/
  cnt : BitVec 61
  /-- `PHASE` (R27). -/
  phase : Phase
  /-- `ERR_LEN` (R28). -/
  errLen : Bool
  /-- `ERR_SEQ` (R28). -/
  errSeq : Bool
  /-- `ERR_CMD` (R28). -/
  errCmd : Bool
  /-- `ESEQ` (R29). -/
  eseq : Eseq
  /-- What waits at the block's inputs, the oldest first: the host's accesses in the order it issues them, and reset
  (20_memory.md R57; assumption 3: DESIGN CHOICE, safe). -/
  inputs : List Input
  /-- `RDATA`, the value the last access returned to the host; `none` after one that returns nothing
  (30_encoding.md R71, 42_driver.md R160; assumption 3: DESIGN CHOICE, safe). -/
  rdata : Option Word
  /-- How many compressions have completed since reset; nothing reads it (assumption 5: DESIGN CHOICE, safe). -/
  compressions : Nat
deriving DecidableEq, Repr

/-- The machine never stops with a fault: the block has no traps, and every access completes (60_exceptions.md R220,
70_reset_and_hazards.md R257). There is no constructor. -/
inductive Fault where
deriving DecidableEq, Repr

/-- Why a step has no meaning. -/
inductive Refusal where
  /-- Raised by `exec` for an instruction that has no meaning yet; no arm raises it. Safe: the machine stops. -/
  | notModelled (mnemonic : String)
  /-- Raised by the seven reserved control words: "A model that exposes RCW decoding must refuse them (no step), never
  give them a value" (30_encoding.md R82). Safe: the machine stops. -/
  | rcwReserved
deriving DecidableEq, Repr

/-- The state after reset (10_state.md R43, 70_reset_and_hazards.md R251). `WK`, `MW` and `BUF` are unspecified there and
read zero here (assumption 1: DESIGN CHOICE, unsafe). -/
def State.reset : State where
  st := iv
  wk := ⟨0#32, 0#32, 0#32, 0#32⟩
  mw := Vector.replicate 16 0#32
  buf := []
  cnt := 0#61
  phase := .idle
  errLen := false
  errSeq := false
  errCmd := false
  eseq := .idle
  inputs := []
  rdata := none
  compressions := 0

end Sys2Proof.Machine
end

