-- ==== Sys2Proof/Machine/Operands.lean ====
section
/-! DEFINITION. Operand forms: byte order, register selection, and the datapath functions of the round engine. -/

namespace Sys2Proof

/-! ### The four registers of a file -/

def Quad.get (q : Quad) (r : QReg) : Word :=
  match r with
  | .a => q.a
  | .b => q.b
  | .c => q.c
  | .d => q.d

def Quad.set (q : Quad) (r : QReg) (v : Word) : Quad :=
  match r with
  | .a => { q with a := v }
  | .b => { q with b := v }
  | .c => { q with c := v }
  | .d => { q with d := v }

/-- The four words in the order A, B, C, D. -/
def Quad.words (q : Quad) : List Word := [q.a, q.b, q.c, q.d]

/-- Four independent sums modulo `2^32`, with no carry between them (41_compression.md R137, R140). -/
def Quad.add (p q : Quad) : Quad := ⟨p.a + q.a, p.b + q.b, p.c + q.c, p.d + q.d⟩

end Sys2Proof

namespace Sys2Proof.Machine

/-! ### Byte order (00_scope.md R12) -/

/-- `LE32(b0, b1, b2, b3)`: byte 0 is the least significant. -/
def le32 (b0 b1 b2 b3 : Byte) : Word := b3 ++ b2 ++ b1 ++ b0

/-- `bytes32(w)`, the least significant byte first. -/
def bytes32 (w : Word) : List Byte :=
  [w.extractLsb' 0 8, w.extractLsb' 8 8, w.extractLsb' 16 8, w.extractLsb' 24 8]

/-- `LE64(n)`, the low-order byte first. -/
def le64 (n : BitVec 64) : List Byte :=
  [n.extractLsb' 0 8, n.extractLsb' 8 8, n.extractLsb' 16 8, n.extractLsb' 24 8,
   n.extractLsb' 32 8, n.extractLsb' 40 8, n.extractLsb' 48 8, n.extractLsb' 56 8]

/-! ### Registers of a four-word file -/

/-- The register with index `n`: 0 is a, 3 is d (10_state.md R21, R23). -/
def regOf (n : BitVec 2) : QReg :=
  match n.toNat with
  | 0 => .a
  | 1 => .b
  | 2 => .c
  | _ => .d

/-! ### The round engine's datapath -/

/-- `F(x, y, z)` (41_compression.md R123). -/
def funF (x y z : Word) : Word := (x &&& y) ||| (~~~x &&& z)

/-- `G(x, y, z)` (41_compression.md R124). -/
def funG (x y z : Word) : Word := (x &&& z) ||| (y &&& ~~~z)

/-- `H(x, y, z)` (41_compression.md R125). -/
def funH (x y z : Word) : Word := x ^^^ y ^^^ z

/-- `I(x, y, z)` (41_compression.md R126). -/
def funI (x y z : Word) : Word := y ^^^ (x ||| ~~~z)

/-- `FUNC[q]`, the nonlinear-function multiplexer (41_compression.md R122). -/
def roundFun (q : BitVec 2) (x y z : Word) : Word :=
  match q.toNat with
  | 0 => funF x y z
  | 1 => funG x y z
  | 2 => funH x y z
  | _ => funI x y z

/-- `rotl32(v, s)` for `0 < s < 32` (00_scope.md R11, 41_compression.md R131). -/
def rotl32 (v : Word) (s : Nat) : Word := (v <<< s) ||| (v >>> (32 - s))

/-- The registers a step uses: the accumulator and the three arguments. -/
structure Roles where
  acc : QReg
  x : QReg
  y : QReg
  z : QReg
deriving DecidableEq, Repr

/-- `ROLE[r]` (41_compression.md R130, 90_conflicts.md C4). -/
def rolesOf (r : BitVec 2) : Roles :=
  match r.toNat with
  | 0 => ⟨.a, .b, .c, .d⟩
  | 1 => ⟨.d, .a, .b, .c⟩
  | 2 => ⟨.c, .d, .a, .b⟩
  | _ => ⟨.b, .c, .d, .a⟩

/-- The step datapath with function `f`: the accumulator is read before it is written, and no other register changes
(41_compression.md R132). -/
def stepWords (f : Word → Word → Word → Word) (mw : Vector Word 16) (i : BitVec 6) (wk : Quad) : Quad :=
  let r := rolesOf (roleSelect i)
  let fv := f (wk.get r.x) (wk.get r.y) (wk.get r.z)
  let t := wk.get r.acc + fv + addConst i + mw[msgIndex i]
  wk.set r.acc (wk.get r.x + rotl32 t (rotAmount i))

end Sys2Proof.Machine
end

