-- ==== Sys2Proof/Machine/Flags.lean ====
section
/-! DEFINITION. The error flags and the STATUS register's layout. -/

namespace Sys2Proof.Machine

/-- The three errors (60_exceptions.md R221). -/
inductive ErrorKind where
  /-- `ERR_LEN`: a data write would make `CNT` exceed `MAXLEN`. -/
  | len
  /-- `ERR_SEQ`: a data write or FINAL outside phase ABSORB. -/
  | seq
  /-- `ERR_CMD`: a CMD write with a reserved command code. -/
  | cmd
deriving DecidableEq, Repr

/-- The code of an error: the bit position of its flag in STATUS (60_exceptions.md R221). -/
def errorCode (e : ErrorKind) : Nat :=
  match e with
  | .len => 2
  | .seq => 3
  | .cmd => 4

/-- The flag of an error, as it stands in the state. -/
def errorFlag (e : ErrorKind) (s : State) : Bool :=
  match e with
  | .len => s.errLen
  | .seq => s.errSeq
  | .cmd => s.errCmd

/-- The two bits that stand for a phase (10_state.md R27). -/
def phaseCode (p : Phase) : BitVec 2 :=
  match p with
  | .idle => 0#2
  | .absorb => 1#2
  | .done => 2#2
  | .failed => 3#2

/-- A flag as a 32-bit number. -/
def flagBit (b : Bool) : Word := if b then 1#32 else 0#32

/-- `STATUS` (10_state.md R34, 42_driver.md R171):
`PHASE | ERR_LEN << 2 | ERR_SEQ << 3 | ERR_CMD << 4 | (CNT mod 64) << 8`. -/
def statusWord (s : State) : Word :=
  (phaseCode s.phase).setWidth 32 ||| (flagBit s.errLen <<< 2) ||| (flagBit s.errSeq <<< 3) |||
    (flagBit s.errCmd <<< 4) ||| (BitVec.ofNat 32 (s.cnt.toNat % 64) <<< 8)

end Sys2Proof.Machine
end

