-- ==== Sys2Proof/Machine/Ops.lean ====
section
/-! DEFINITION. The shared operations over the block buffer and the registers: reading and writing `BUF`, recording an error
and recovering from it, answering the host. -/

namespace Sys2Proof.Machine

/-! ### The block buffer (20_memory.md R53) -/

/-- An index of `BUF`: 0 to 63, so that no operation can name a byte the buffer does not have. -/
abbrev BufIdx := Fin 64

/-- What an unlisted index of `BUF` reads as (assumption 2: DESIGN CHOICE, unsafe). -/
def Memory.unlisted : Byte := 0#8

/-- The byte of cell `k`, over the raw list. -/
def cellRead (m : List Host.Cell) (k : Nat) : Byte :=
  match m with
  | [] => Memory.unlisted
  | c :: rest => if c.1 = k then c.2 else cellRead rest k

/-- The list with cell `k` holding `b`: the cell stands at its place in the order, and is left out when `b` is what an
unlisted index reads as. -/
def cellWrite (m : List Host.Cell) (k : Nat) (b : Byte) : List Host.Cell :=
  match m with
  | [] => if b = Memory.unlisted then [] else [(k, b)]
  | c :: rest =>
    if c.1 < k then c :: cellWrite rest k b
    else
      let after := if c.1 = k then rest else c :: rest
      if b = Memory.unlisted then after else (k, b) :: after

/-- The cells from index `lo` on are in the canonical form. -/
def cellsFrom (lo : Nat) (m : List Host.Cell) : Bool :=
  match m with
  | [] => true
  | c :: rest => lo ≤ c.1 && c.1 < 64 && c.2 != Memory.unlisted && cellsFrom (c.1 + 1) rest

/-- The canonical form of a buffer: indices strictly rising and below 64, no cell holding the unlisted value. -/
def Memory.wf (m : Memory) : Bool := cellsFrom 0 m

/-- `BUF[k]`. -/
def Memory.read (m : Memory) (k : BufIdx) : Byte := cellRead m k.val

/-- `BUF[k] <- b`. -/
def Memory.write (m : Memory) (k : BufIdx) (b : Byte) : Memory := cellWrite m k.val b

/-- `MemRead(4*j, 4)` (00_scope.md R13, 41_compression.md R121). -/
def Memory.word (m : Memory) (j : Fin 16) : Word :=
  le32 (m.read ⟨4 * j.val, by omega⟩) (m.read ⟨4 * j.val + 1, by omega⟩)
    (m.read ⟨4 * j.val + 2, by omega⟩) (m.read ⟨4 * j.val + 3, by omega⟩)

/-- `for k in lo .. hi: MemWrite(k, 1, 0x00)`; empty when `hi < lo` (40_padding.md R106). -/
def Memory.zeroFill (m : Memory) (lo hi : Nat) : Memory :=
  (List.finRange 64).foldl (fun m k => if lo ≤ k.val ∧ k.val ≤ hi then m.write k 0#8 else m) m

/-- `MemWrite(56, 8, L)`: `BUF[56..63] <- LE64(L)` (40_padding.md R106). -/
def Memory.writeLength (m : Memory) (n : BitVec 64) : Memory :=
  (List.finRange 8).foldl
    (fun m j => m.write ⟨56 + j.val, by omega⟩ (n.extractLsb' (8 * j.val) 8)) m

/-- `BUF[0..63]`, in order. -/
def Memory.bytes (m : Memory) : List Byte := (List.finRange 64).map m.read

/-- The tail position `CNT mod 64` (20_memory.md R53). -/
def tailIdx (cnt : BitVec 61) : BufIdx := ⟨cnt.toNat % 64, Nat.mod_lt _ (by decide)⟩

/-! ### Errors: entry and recovery -/

/-- `raise E`: the entry into an error. It sets the error's sticky flag and does nothing else: no register is saved, no mode
changes and control goes nowhere (00_scope.md R13, 60_exceptions.md R220, R226). -/
def raiseError (e : ErrorKind) (s : State) : State :=
  match e with
  | .len => { s with errLen := true }
  | .seq => { s with errSeq := true }
  | .cmd => { s with errCmd := true }

/-- The recovery from errors, which INIT performs: every flag is cleared (60_exceptions.md R227). -/
def clearErrors (s : State) : State := { s with errLen := false, errSeq := false, errCmd := false }

/-! ### Answering the host (42_driver.md R160) -/

/-- The access returns `v`. -/
def respond (v : Word) (s : State) : State := { s with rdata := some v }

/-- The access returns nothing. -/
def noResponse (s : State) : State := { s with rdata := none }

/-- The reset event, between two accesses or in the middle of one: the state of reset, whatever had run; what still waits at
the inputs stays there (70_reset_and_hazards.md R250 to R252; assumption 12: DEDUCED, unsafe). -/
def resetEvent (waiting : List Input) : State := { State.reset with inputs := waiting }

/-- `f` applied to the next state, if there is one. -/
def mapNext (f : State → State) (o : Host.Outcome State Fault Refusal) : Host.Outcome State Fault Refusal :=
  match o with
  | .next s => .next (f s)
  | .fault r => .fault r
  | .refused r => .refused r

end Sys2Proof.Machine
end

