-- ==== Sys2Proof/Machine/RoundEngine.lean ====
section
/-! DEFINITION. The block unpacker, the round engine and the state accumulator: the micro-operations of 41_compression.md,
the compression they make up, and the sequencer that issues them. -/

namespace Sys2Proof.Machine

/-! ### The micro-operations -/

/-- UNPACK (41_compression.md R121). -/
def unpackOp (s : State) : State :=
  { s with mw := Vector.ofFn (fun j : Fin 16 => Memory.word s.buf j), wk := s.st }

/-- STEP with function `f`: writes `WK[acc]` only (41_compression.md R132). -/
def stepWith (f : Word → Word → Word → Word) (i : BitVec 6) (s : State) : State :=
  { s with wk := stepWords f s.mw i s.wk }

/-- STEP(i), the generic step: the function is the round's (41_compression.md R132). -/
def stepOp (i : BitVec 6) (s : State) : State := stepWith (roundFun (roundOf i)) i s

/-- ACCUM (41_compression.md R137). -/
def accumOp (s : State) : State := { s with st := s.st.add s.wk }

/-! ### The compression and its sequencer -/

/-- `ESEQ <- IDLE` at the end of a compression; the model's count of compressions goes up by one (assumption 5: DESIGN CHOICE, safe). -/
def retire (s : State) : State := { s with eseq := .idle, compressions := s.compressions + 1 }

/-- `ESEQ <- STEP(i); STEP(i)` for the step indices of a list, in order. -/
def runSteps (is : List Nat) (s : State) : State :=
  is.foldl (fun s i => stepOp (BitVec.ofNat 6 i) { s with eseq := .step (BitVec.ofNat 6 i) }) s

/-- `COMPRESS()`: UNPACK, STEP(0) to STEP(63) and ACCUM, in that order (41_compression.md R138). -/
def compress (s : State) : State :=
  let s := unpackOp { s with eseq := .unpack }
  let s := runSteps (List.range 64) s
  let s := accumOp { s with eseq := .accum }
  retire s

/-- The control word the sequencer issues (30_encoding.md R79); `ESEQ = IDLE` issues nothing. -/
def controlWord (e : Eseq) : Option RcwWord :=
  match e with
  | .idle => none
  | .unpack => some 0x00#8
  | .step i => some (0b10#2 ++ i)
  | .accum => some 0x01#8

/-- The sequencer moves on by one position: UNPACK, STEP(0), ..., STEP(63), ACCUM, IDLE; it never skips or branches
(10_state.md R29, R31). -/
def advance (s : State) : State :=
  match s.eseq with
  | .idle => s
  | .unpack => { s with eseq := .step 0#6 }
  | .step i => if i = 63#6 then { s with eseq := .accum } else { s with eseq := .step (i + 1#6) }
  | .accum => retire s

/-! ### The meanings of the control words -/

/-- UNPACK (41_compression.md R121). -/
def execUnpack (s : State) : Host.Outcome State Fault Refusal := .next (unpackOp s)

/-- ACCUM (41_compression.md R137). -/
def execAccum (s : State) : Host.Outcome State Fault Refusal := .next (accumOp s)

/-- STEP_F (41_compression.md R133). -/
def execStepF (i : BitVec 6) (s : State) : Host.Outcome State Fault Refusal := .next (stepWith funF i s)

/-- STEP_G (41_compression.md R134). -/
def execStepG (i : BitVec 6) (s : State) : Host.Outcome State Fault Refusal := .next (stepWith funG i s)

/-- STEP_H (41_compression.md R135). -/
def execStepH (i : BitVec 6) (s : State) : Host.Outcome State Fault Refusal := .next (stepWith funH i s)

/-- STEP_I (41_compression.md R136). -/
def execStepI (i : BitVec 6) (s : State) : Host.Outcome State Fault Refusal := .next (stepWith funI i s)

/-- A reserved control word: "A model that exposes RCW decoding must refuse them (no step), never give them a value"
(30_encoding.md R82). -/
def refuseReserved : Host.Outcome State Fault Refusal := .refused .rcwReserved

/-- RCW 0x02 to 0x03 (30_encoding.md R82). -/
def execRcwRsvd02to03 (_w : RcwWord) (_s : State) : Host.Outcome State Fault Refusal := refuseReserved

/-- RCW 0x04 to 0x07 (30_encoding.md R82). -/
def execRcwRsvd04to07 (_w : RcwWord) (_s : State) : Host.Outcome State Fault Refusal := refuseReserved

/-- RCW 0x08 to 0x0F (30_encoding.md R82). -/
def execRcwRsvd08to0F (_w : RcwWord) (_s : State) : Host.Outcome State Fault Refusal := refuseReserved

/-- RCW 0x10 to 0x1F (30_encoding.md R82). -/
def execRcwRsvd10to1F (_w : RcwWord) (_s : State) : Host.Outcome State Fault Refusal := refuseReserved

/-- RCW 0x20 to 0x3F (30_encoding.md R82). -/
def execRcwRsvd20to3F (_w : RcwWord) (_s : State) : Host.Outcome State Fault Refusal := refuseReserved

/-- RCW 0x40 to 0x7F (30_encoding.md R82). -/
def execRcwRsvd40to7F (_w : RcwWord) (_s : State) : Host.Outcome State Fault Refusal := refuseReserved

/-- RCW 0xC0 to 0xFF (30_encoding.md R82). -/
def execRcwRsvdC0toFF (_w : RcwWord) (_s : State) : Host.Outcome State Fault Refusal := refuseReserved

end Sys2Proof.Machine
end

