-- ==== Sys2Proof/Machine/Padding.lean ====
section
/-! DEFINITION. The padding engine's procedure on `BUF` (40_padding.md). -/

namespace Sys2Proof.Machine

/-- `L = CNT * 8`, exact in 64 bits (40_padding.md R105). -/
def bitLength (cnt : BitVec 61) : BitVec 64 := BitVec.ofNat 64 (cnt.toNat * 8)

/-- The last padded block from the tail in `BUF`: zeros up to index 55 from `lo` on, then the length. -/
def padLast (lo : Nat) (s : State) : State :=
  compress { s with buf := (s.buf.zeroFill lo 55).writeLength (bitLength s.cnt) }

/-- `PAD_AND_COMPRESS()` (40_padding.md R106): one padded block when `t <= 55`, two when `t >= 56`. -/
def padAndCompress (s : State) : State :=
  let t := s.cnt.toNat % 64
  let s := { s with buf := s.buf.write (tailIdx s.cnt) 0x80#8 }
  if t ≤ 55 then padLast (t + 1) s
  else padLast 0 (compress { s with buf := s.buf.zeroFill (t + 1) 63 })

end Sys2Proof.Machine
end

