-- ==== Sys2Proof/Machine/Driver.lean ====
section
/-! DEFINITION. The streaming driver: the commands and the data writes (42_driver.md sections 2 and 3). -/

namespace Sys2Proof.Machine

/-! ### Shared operations -/

/-- `ACCEPT(n)`: may a data write of `n` bytes be absorbed? The phase is checked first; a refusal records its error, and a
length overflow moves the driver to FAILED (42_driver.md R166, 60_exceptions.md R225). -/
def accept (n : Nat) (s : State) : State × Bool :=
  if s.phase ≠ .absorb then (raiseError .seq s, false)
  else if s.cnt.toNat + n > maxLen then ({ raiseError .len s with phase := .failed }, false)
  else (s, true)

/-- `ABSORB_BYTE(b)` (42_driver.md R167): the block is compressed the moment its 64th byte arrives. -/
def absorbByte (s : State) (b : Byte) : State :=
  let s := { s with buf := s.buf.write (tailIdx s.cnt) b, cnt := s.cnt + 1#61 }
  if s.cnt.toNat % 64 = 0 then compress s else s

/-- The bytes of one write, the first first. -/
def absorbBytes (bs : List Byte) (s : State) : State := bs.foldl absorbByte s

/-- A data write: all its bytes are absorbed, or none (42_driver.md R166). -/
def dataWrite (bs : List Byte) (s : State) : State :=
  let (s, ok) := accept bs.length s
  if ok then absorbBytes bs s else s

/-- `INIT` (42_driver.md R163). -/
def initOp (s : State) : State := { clearErrors s with st := iv, cnt := 0#61, phase := .absorb }

/-- `FINAL` (42_driver.md R164). -/
def finalOp (s : State) : State :=
  if s.phase ≠ .absorb then raiseError .seq s else { padAndCompress s with phase := .done }

/-! ### The meanings of the CMD writes; the ignored bits `WDATA[31:4]` have no effect -/

/-- NOP (42_driver.md R162). -/
def execNop (_ign : BitVec 28) (s : State) : Host.Outcome State Fault Refusal := .next (noResponse s)

/-- INIT (42_driver.md R163). -/
def execInit (_ign : BitVec 28) (s : State) : Host.Outcome State Fault Refusal := .next (noResponse (initOp s))

/-- FINAL (42_driver.md R164). -/
def execFinal (_ign : BitVec 28) (s : State) : Host.Outcome State Fault Refusal := .next (noResponse (finalOp s))

/-- The reserved command code 0x3 (42_driver.md R165). -/
def execCmdRsvd3 (_ign : BitVec 28) (s : State) : Host.Outcome State Fault Refusal :=
  .next (noResponse (raiseError .cmd s))

/-- The reserved command codes 0x4 to 0x7 (42_driver.md R165). -/
def execCmdRsvd4to7 (_op : BitVec 4) (_ign : BitVec 28) (s : State) : Host.Outcome State Fault Refusal :=
  .next (noResponse (raiseError .cmd s))

/-- The reserved command codes 0x8 to 0xF (42_driver.md R165). -/
def execCmdRsvd8toF (_op : BitVec 4) (_ign : BitVec 28) (s : State) : Host.Outcome State Fault Refusal :=
  .next (noResponse (raiseError .cmd s))

/-! ### The meanings of the data writes -/

/-- DATA_W (42_driver.md R168): four bytes, `WDATA[7:0]` first. -/
def execDataW (b0 b1 b2 b3 : Byte) (s : State) : Host.Outcome State Fault Refusal :=
  .next (noResponse (dataWrite [b0, b1, b2, b3] s))

/-- DATA_B (42_driver.md R169): one byte; `WDATA[31:8]` is ignored. -/
def execDataB (b : Byte) (_ign : BitVec 24) (s : State) : Host.Outcome State Fault Refusal :=
  .next (noResponse (dataWrite [b] s))

end Sys2Proof.Machine
end

