-- ==== Sys2Proof/Machine/HexFormat.lean ====
section
/-! DEFINITION. The hex output formatter: a function of `ST`, with no state of its own (43_hex_encoder.md). -/

namespace Sys2Proof.Machine

/-- `hexchar(n)`, the ASCII code of the lowercase hex digit of `n` (43_hex_encoder.md R200). -/
def hexChar (n : BitVec 4) : Byte :=
  if n.toNat ≤ 9 then BitVec.ofNat 8 (0x30 + n.toNat) else BitVec.ofNat 8 (0x61 + (n.toNat - 10))

/-- The two characters of a byte, the high nibble first (43_hex_encoder.md R201). -/
def hexByte (b : Byte) : List Byte := [hexChar (b.extractLsb' 4 4), hexChar (b.extractLsb' 0 4)]

/-- The eight characters of a word, its least significant byte first (43_hex_encoder.md R201). -/
def hexWord (w : Word) : List Byte := (bytes32 w).flatMap hexByte

/-- `c[0..31]`, the hex string of `ST`, the words in the order A, B, C, D (43_hex_encoder.md R201). -/
def hexChars (st : Quad) : List Byte := st.words.flatMap hexWord

/-- `HEX[k]`: character `c[4k + j]` stands in bits `8j+7 : 8j` (43_hex_encoder.md R202). -/
def hexReg (st : Quad) (k : BitVec 3) : Word :=
  let c := fun j => (hexChars st).getD (4 * k.toNat + j) 0#8
  le32 (c 0) (c 1) (c 2) (c 3)

end Sys2Proof.Machine
end

