-- ==== Sys2Proof/Machine/Registers.lean ====
section
/-! DEFINITION. The register reads, the benign accesses of 42_driver.md R175 to R177, and the register window's addresses.
A read's unused WDATA has no effect (30_encoding.md R72); a read changes nothing but the value returned (20_memory.md R59). -/

namespace Sys2Proof.Machine

/-! ### The values read -/

/-- LEN_LO: `CNT[31:0]` (10_state.md R38). -/
def lenLo (s : State) : Word := s.cnt.extractLsb' 0 32

/-- LEN_HI: `CNT[60:32]`, bits 31:29 zero (10_state.md R38). -/
def lenHi (s : State) : Word := (s.cnt.extractLsb' 32 29).setWidth 32

/-! ### Reads of readable registers -/

/-- RD STATUS (42_driver.md R171); reading clears no flag. -/
def execRdStatus (_wdata : Word) (s : State) : Host.Outcome State Fault Refusal := .next (respond (statusWord s) s)

/-- RD LEN_LO (42_driver.md R172). -/
def execRdLenLo (_wdata : Word) (s : State) : Host.Outcome State Fault Refusal := .next (respond (lenLo s) s)

/-- RD LEN_HI (42_driver.md R173). -/
def execRdLenHi (_wdata : Word) (s : State) : Host.Outcome State Fault Refusal := .next (respond (lenHi s) s)

/-- RD DIGEST_A to DIGEST_D (42_driver.md R174): the live `ST[w]` in every phase. -/
def execRdDigest (w : BitVec 2) (_wdata : Word) (s : State) : Host.Outcome State Fault Refusal := .next (respond (s.st.get (regOf w)) s)

/-- RD HEXk (43_hex_encoder.md R203): from the live `ST`. -/
def execRdHex (k : BitVec 3) (_wdata : Word) (s : State) : Host.Outcome State Fault Refusal := .next (respond (hexReg s.st k) s)

/-! ### Reads of write-only registers and of reserved indices return 0 -/

/-- RD CMD (42_driver.md R175). -/
def execRdCmd (_wdata : Word) (s : State) : Host.Outcome State Fault Refusal := .next (respond 0#32 s)

/-- RD DATA_W (42_driver.md R175). -/
def execRdDataW (_wdata : Word) (s : State) : Host.Outcome State Fault Refusal := .next (respond 0#32 s)

/-- RD DATA_B (42_driver.md R175). -/
def execRdDataB (_wdata : Word) (s : State) : Host.Outcome State Fault Refusal := .next (respond 0#32 s)

/-- A read of the reserved indices 6 to 7 (42_driver.md R177). -/
def execRdRsvd6to7 (_widx : Widx) (_wdata : Word) (s : State) : Host.Outcome State Fault Refusal := .next (respond 0#32 s)

/-- A read of the reserved indices 12 to 15 (42_driver.md R177). -/
def execRdRsvd12to15 (_widx : Widx) (_wdata : Word) (s : State) : Host.Outcome State Fault Refusal := .next (respond 0#32 s)

/-- A read of the reserved indices 24 to 31 (42_driver.md R177). -/
def execRdRsvd24to31 (_widx : Widx) (_wdata : Word) (s : State) : Host.Outcome State Fault Refusal := .next (respond 0#32 s)

/-- A read of the reserved indices 32 to 63 (42_driver.md R177). -/
def execRdRsvd32to63 (_widx : Widx) (_wdata : Word) (s : State) : Host.Outcome State Fault Refusal := .next (respond 0#32 s)

/-! ### Writes of read-only registers and of reserved indices are ignored -/

/-- WR STATUS (42_driver.md R176). -/
def execWrStatus (_wdata : Word) (s : State) : Host.Outcome State Fault Refusal := .next (noResponse s)

/-- WR LEN_LO (42_driver.md R176). -/
def execWrLenLo (_wdata : Word) (s : State) : Host.Outcome State Fault Refusal := .next (noResponse s)

/-- WR LEN_HI (42_driver.md R176). -/
def execWrLenHi (_wdata : Word) (s : State) : Host.Outcome State Fault Refusal := .next (noResponse s)

/-- WR DIGEST_A to DIGEST_D (42_driver.md R176). -/
def execWrDigest (_w : BitVec 2) (_wdata : Word) (s : State) : Host.Outcome State Fault Refusal := .next (noResponse s)

/-- WR HEXk (42_driver.md R176). -/
def execWrHex (_k : BitVec 3) (_wdata : Word) (s : State) : Host.Outcome State Fault Refusal := .next (noResponse s)

/-- A write of the reserved indices 6 to 7 (42_driver.md R177). -/
def execWrRsvd6to7 (_widx : Widx) (_wdata : Word) (s : State) : Host.Outcome State Fault Refusal := .next (noResponse s)

/-- A write of the reserved indices 12 to 15 (42_driver.md R177). -/
def execWrRsvd12to15 (_widx : Widx) (_wdata : Word) (s : State) : Host.Outcome State Fault Refusal := .next (noResponse s)

/-- A write of the reserved indices 24 to 31 (42_driver.md R177). -/
def execWrRsvd24to31 (_widx : Widx) (_wdata : Word) (s : State) : Host.Outcome State Fault Refusal := .next (noResponse s)

/-- A write of the reserved indices 32 to 63 (42_driver.md R177). -/
def execWrRsvd32to63 (_widx : Widx) (_wdata : Word) (s : State) : Host.Outcome State Fault Refusal := .next (noResponse s)

end Sys2Proof.Machine
end

