-- ==== Sys2Proof/Syntax.lean ====
section
/-! DEFINITION. The instructions: one constructor per row of spec/opcode_table.json. The 29 `HT` rows are the host's
transactions, the 13 `RCW` rows the round engine's control words (30_encoding.md R70). Bits the block ignores are
operands too, so that no bit of an encoding is lost (assumption 6: DESIGN CHOICE, safe). -/

namespace Sys2Proof

inductive Instr where
  -- CMD writes (30_encoding.md R74): `ign` is the ignored `WDATA[31:4]`, `op` is `WDATA[3:0]`.
  | nop (ign : BitVec 28)
  | init (ign : BitVec 28)
  | final (ign : BitVec 28)
  | cmdRsvd3 (ign : BitVec 28)
  | cmdRsvd4to7 (op : BitVec 4) (ign : BitVec 28)
  | cmdRsvd8toF (op : BitVec 4) (ign : BitVec 28)
  -- Data writes (R75, R76): `ign` is the ignored `WDATA[31:8]`.
  | dataW (b0 b1 b2 b3 : Byte)
  | dataB (b : Byte) (ign : BitVec 24)
  -- Reads of readable registers; `wdata` is the unused WDATA of a read (R72).
  | rdStatus (wdata : Word)
  | rdLenLo (wdata : Word)
  | rdLenHi (wdata : Word)
  | rdDigest (w : BitVec 2) (wdata : Word)
  | rdHex (k : BitVec 3) (wdata : Word)
  -- Reads of write-only registers (42_driver.md R175).
  | rdCmd (wdata : Word)
  | rdDataW (wdata : Word)
  | rdDataB (wdata : Word)
  -- Writes of read-only registers (R176).
  | wrStatus (wdata : Word)
  | wrLenLo (wdata : Word)
  | wrLenHi (wdata : Word)
  | wrDigest (w : BitVec 2) (wdata : Word)
  | wrHex (k : BitVec 3) (wdata : Word)
  -- Accesses of reserved word indices (R177).
  | rdRsvd6to7 (widx : Widx) (wdata : Word)
  | rdRsvd12to15 (widx : Widx) (wdata : Word)
  | rdRsvd24to31 (widx : Widx) (wdata : Word)
  | rdRsvd32to63 (widx : Widx) (wdata : Word)
  | wrRsvd6to7 (widx : Widx) (wdata : Word)
  | wrRsvd12to15 (widx : Widx) (wdata : Word)
  | wrRsvd24to31 (widx : Widx) (wdata : Word)
  | wrRsvd32to63 (widx : Widx) (wdata : Word)
  -- Round-engine micro-operations (30_encoding.md R79); `i` is the step index `RCW[5:0]`
  -- (an index outside the form's round is ill-formed and never decoded; assumption 13: DESIGN CHOICE, safe).
  | unpack
  | accum
  | stepF (i : BitVec 6)
  | stepG (i : BitVec 6)
  | stepH (i : BitVec 6)
  | stepI (i : BitVec 6)
  -- Reserved control words (R82); `w` is the whole word.
  | rcwRsvd02to03 (w : RcwWord)
  | rcwRsvd04to07 (w : RcwWord)
  | rcwRsvd08to0F (w : RcwWord)
  | rcwRsvd10to1F (w : RcwWord)
  | rcwRsvd20to3F (w : RcwWord)
  | rcwRsvd40to7F (w : RcwWord)
  | rcwRsvdC0toFF (w : RcwWord)
deriving DecidableEq, Repr

/-- The two formats of 30_encoding.md R70. -/
inductive Format where
  | ht
  | rcw
deriving DecidableEq, Repr

/-- An encoded instruction: a host transaction or a control word. -/
inductive Encoded where
  | ht (v : HtWord)
  | rcw (v : RcwWord)
deriving DecidableEq, Repr

end Sys2Proof
end

