-- ==== Sys2Proof/Machine/Dispatch.lean ====
section
/-! DEFINITION. One arm per instruction, each one call of its meaning. -/

namespace Sys2Proof.Machine

def exec (i : Instr) (s : State) : Host.Outcome State Fault Refusal :=
  match i with
  | .nop ign => Sys2Proof.Machine.execNop ign s
  | .init ign => Sys2Proof.Machine.execInit ign s
  | .final ign => Sys2Proof.Machine.execFinal ign s
  | .cmdRsvd3 ign => Sys2Proof.Machine.execCmdRsvd3 ign s
  | .cmdRsvd4to7 op ign => Sys2Proof.Machine.execCmdRsvd4to7 op ign s
  | .cmdRsvd8toF op ign => Sys2Proof.Machine.execCmdRsvd8toF op ign s
  | .dataW b0 b1 b2 b3 => Sys2Proof.Machine.execDataW b0 b1 b2 b3 s
  | .dataB b ign => Sys2Proof.Machine.execDataB b ign s
  | .rdStatus wdata => Sys2Proof.Machine.execRdStatus wdata s
  | .rdLenLo wdata => Sys2Proof.Machine.execRdLenLo wdata s
  | .rdLenHi wdata => Sys2Proof.Machine.execRdLenHi wdata s
  | .rdDigest w wdata => Sys2Proof.Machine.execRdDigest w wdata s
  | .rdHex k wdata => Sys2Proof.Machine.execRdHex k wdata s
  | .rdCmd wdata => Sys2Proof.Machine.execRdCmd wdata s
  | .rdDataW wdata => Sys2Proof.Machine.execRdDataW wdata s
  | .rdDataB wdata => Sys2Proof.Machine.execRdDataB wdata s
  | .wrStatus wdata => Sys2Proof.Machine.execWrStatus wdata s
  | .wrLenLo wdata => Sys2Proof.Machine.execWrLenLo wdata s
  | .wrLenHi wdata => Sys2Proof.Machine.execWrLenHi wdata s
  | .wrDigest w wdata => Sys2Proof.Machine.execWrDigest w wdata s
  | .wrHex k wdata => Sys2Proof.Machine.execWrHex k wdata s
  | .rdRsvd6to7 widx wdata => Sys2Proof.Machine.execRdRsvd6to7 widx wdata s
  | .rdRsvd12to15 widx wdata => Sys2Proof.Machine.execRdRsvd12to15 widx wdata s
  | .rdRsvd24to31 widx wdata => Sys2Proof.Machine.execRdRsvd24to31 widx wdata s
  | .rdRsvd32to63 widx wdata => Sys2Proof.Machine.execRdRsvd32to63 widx wdata s
  | .wrRsvd6to7 widx wdata => Sys2Proof.Machine.execWrRsvd6to7 widx wdata s
  | .wrRsvd12to15 widx wdata => Sys2Proof.Machine.execWrRsvd12to15 widx wdata s
  | .wrRsvd24to31 widx wdata => Sys2Proof.Machine.execWrRsvd24to31 widx wdata s
  | .wrRsvd32to63 widx wdata => Sys2Proof.Machine.execWrRsvd32to63 widx wdata s
  | .unpack => Sys2Proof.Machine.execUnpack s
  | .accum => Sys2Proof.Machine.execAccum s
  | .stepF n => Sys2Proof.Machine.execStepF n s
  | .stepG n => Sys2Proof.Machine.execStepG n s
  | .stepH n => Sys2Proof.Machine.execStepH n s
  | .stepI n => Sys2Proof.Machine.execStepI n s
  | .rcwRsvd02to03 w => Sys2Proof.Machine.execRcwRsvd02to03 w s
  | .rcwRsvd04to07 w => Sys2Proof.Machine.execRcwRsvd04to07 w s
  | .rcwRsvd08to0F w => Sys2Proof.Machine.execRcwRsvd08to0F w s
  | .rcwRsvd10to1F w => Sys2Proof.Machine.execRcwRsvd10to1F w s
  | .rcwRsvd20to3F w => Sys2Proof.Machine.execRcwRsvd20to3F w s
  | .rcwRsvd40to7F w => Sys2Proof.Machine.execRcwRsvd40to7F w s
  | .rcwRsvdC0toFF w => Sys2Proof.Machine.execRcwRsvdC0toFF w s

end Sys2Proof.Machine
end

