-- ==== Sys2Proof/WellFormed.lean ====
section
/-! DEFINITION. Which operand values an instruction's encoding admits: each check is the range that the row's `match` and
`mask` in spec/opcode_table.json give the field. -/

namespace Sys2Proof

/-- `lo ≤ v ≤ hi` as unsigned numbers. -/
def inRange {n : Nat} (v : BitVec n) (lo hi : Nat) : Bool := lo ≤ v.toNat && v.toNat ≤ hi

/-- The instruction's operands are ones its row of the opcode table can encode (30_encoding.md R73, R74, R79, R81). -/
def WellFormed (i : Instr) : Bool :=
  match i with
  | .nop _ => true
  | .init _ => true
  | .final _ => true
  | .cmdRsvd3 _ => true
  | .cmdRsvd4to7 op _ => inRange op 4 7
  | .cmdRsvd8toF op _ => inRange op 8 15
  | .dataW _ _ _ _ => true
  | .dataB _ _ => true
  | .rdStatus _ => true
  | .rdLenLo _ => true
  | .rdLenHi _ => true
  | .rdDigest _ _ => true
  | .rdHex _ _ => true
  | .rdCmd _ => true
  | .rdDataW _ => true
  | .rdDataB _ => true
  | .wrStatus _ => true
  | .wrLenLo _ => true
  | .wrLenHi _ => true
  | .wrDigest _ _ => true
  | .wrHex _ _ => true
  | .rdRsvd6to7 x _ => inRange x 6 7
  | .rdRsvd12to15 x _ => inRange x 12 15
  | .rdRsvd24to31 x _ => inRange x 24 31
  | .rdRsvd32to63 x _ => inRange x 32 63
  | .wrRsvd6to7 x _ => inRange x 6 7
  | .wrRsvd12to15 x _ => inRange x 12 15
  | .wrRsvd24to31 x _ => inRange x 24 31
  | .wrRsvd32to63 x _ => inRange x 32 63
  | .unpack => true
  | .accum => true
  | .stepF i => inRange i 0 15
  | .stepG i => inRange i 16 31
  | .stepH i => inRange i 32 47
  | .stepI i => inRange i 48 63
  | .rcwRsvd02to03 w => inRange w 0x02 0x03
  | .rcwRsvd04to07 w => inRange w 0x04 0x07
  | .rcwRsvd08to0F w => inRange w 0x08 0x0F
  | .rcwRsvd10to1F w => inRange w 0x10 0x1F
  | .rcwRsvd20to3F w => inRange w 0x20 0x3F
  | .rcwRsvd40to7F w => inRange w 0x40 0x7F
  | .rcwRsvdC0toFF w => inRange w 0xC0 0xFF

end Sys2Proof
end

