-- ==== Sys2Proof/Decode.lean ====
section
/-! DEFINITION. The decoder, total on every host transaction, every control word and every list of bytes; the encoder,
written from the same encodings; and the opcode table's rows as data. -/

namespace Sys2Proof

/-! ### The decoder -/

/-- A CMD write, by its command code `OP = WDATA[3:0]` (30_encoding.md R74). -/
def decodeCmd (wdata : Word) : Instr :=
  let op := wdata.extractLsb' 0 4
  let ign := wdata.extractLsb' 4 28
  if op.toNat = 0 then .nop ign
  else if op.toNat = 1 then .init ign
  else if op.toNat = 2 then .final ign
  else if op.toNat = 3 then .cmdRsvd3 ign
  else if op.toNat < 8 then .cmdRsvd4to7 op ign
  else .cmdRsvd8toF op ign

/-- A write, by its word index (20_memory.md R52; 42_driver.md R160). -/
def decodeWrite (widx : Widx) (wdata : Word) : Instr :=
  let n := widx.toNat
  if n = 0 then decodeCmd wdata
  else if n = 1 then .wrStatus wdata
  else if n = 2 then
    .dataW (wdata.extractLsb' 0 8) (wdata.extractLsb' 8 8) (wdata.extractLsb' 16 8) (wdata.extractLsb' 24 8)
  else if n = 3 then .dataB (wdata.extractLsb' 0 8) (wdata.extractLsb' 8 24)
  else if n = 4 then .wrLenLo wdata
  else if n = 5 then .wrLenHi wdata
  else if n < 8 then .wrRsvd6to7 widx wdata
  else if n < 12 then .wrDigest (widx.extractLsb' 0 2) wdata
  else if n < 16 then .wrRsvd12to15 widx wdata
  else if n < 24 then .wrHex (widx.extractLsb' 0 3) wdata
  else if n < 32 then .wrRsvd24to31 widx wdata
  else .wrRsvd32to63 widx wdata

/-- A read, by its word index (20_memory.md R52; 42_driver.md R160). -/
def decodeRead (widx : Widx) (wdata : Word) : Instr :=
  let n := widx.toNat
  if n = 0 then .rdCmd wdata
  else if n = 1 then .rdStatus wdata
  else if n = 2 then .rdDataW wdata
  else if n = 3 then .rdDataB wdata
  else if n = 4 then .rdLenLo wdata
  else if n = 5 then .rdLenHi wdata
  else if n < 8 then .rdRsvd6to7 widx wdata
  else if n < 12 then .rdDigest (widx.extractLsb' 0 2) wdata
  else if n < 16 then .rdRsvd12to15 widx wdata
  else if n < 24 then .rdHex (widx.extractLsb' 0 3) wdata
  else if n < 32 then .rdRsvd24to31 widx wdata
  else .rdRsvd32to63 widx wdata

/-- A host transaction, by the pair `(WE, WIDX)` (30_encoding.md R71, R73): every one has a meaning. -/
def decodeHT (v : HtWord) : Instr :=
  let widx := v.extractLsb' 32 6
  let wdata := v.extractLsb' 0 32
  if v.getLsbD 38 then decodeWrite widx wdata else decodeRead widx wdata

/-- A control word (30_encoding.md R79, R81); the reserved values keep a constructor of their own (R82). -/
def decodeRCW (w : RcwWord) : Instr :=
  let n := w.toNat
  let i := w.extractLsb' 0 6
  if n = 0x00 then .unpack
  else if n = 0x01 then .accum
  else if n < 0x04 then .rcwRsvd02to03 w
  else if n < 0x08 then .rcwRsvd04to07 w
  else if n < 0x10 then .rcwRsvd08to0F w
  else if n < 0x20 then .rcwRsvd10to1F w
  else if n < 0x40 then .rcwRsvd20to3F w
  else if n < 0x80 then .rcwRsvd40to7F w
  else if n < 0x90 then .stepF i
  else if n < 0xA0 then .stepG i
  else if n < 0xB0 then .stepH i
  else if n < 0xC0 then .stepI i
  else .rcwRsvdC0toFF w

def decodeEncoded (e : Encoded) : Instr :=
  match e with
  | .ht v => decodeHT v
  | .rcw w => decodeRCW w

/-! ### The encoder -/

/-- `WE * 2^38 + WIDX * 2^32 + WDATA` (30_encoding.md R71). -/
def htWord (we : BitVec 1) (widx : Widx) (wdata : Word) : HtWord := we ++ widx ++ wdata

def htRead (widx : Widx) (wdata : Word) : Encoded := .ht (htWord 0#1 widx wdata)

def htWrite (widx : Widx) (wdata : Word) : Encoded := .ht (htWord 1#1 widx wdata)

/-- A CMD write with command code `op` (30_encoding.md R74). -/
def htCmd (op : BitVec 4) (ign : BitVec 28) : Encoded := htWrite 0#6 (ign ++ op)

/-- The word that stands for a well-formed instruction (30_encoding.md R71 to R76, R79). -/
def encode (i : Instr) : Encoded :=
  match i with
  | .nop ign => htCmd 0#4 ign
  | .init ign => htCmd 1#4 ign
  | .final ign => htCmd 2#4 ign
  | .cmdRsvd3 ign => htCmd 3#4 ign
  | .cmdRsvd4to7 op ign => htCmd op ign
  | .cmdRsvd8toF op ign => htCmd op ign
  | .dataW b0 b1 b2 b3 => htWrite 2#6 (b3 ++ b2 ++ b1 ++ b0)
  | .dataB b ign => htWrite 3#6 (ign ++ b)
  | .rdStatus d => htRead 1#6 d
  | .rdLenLo d => htRead 4#6 d
  | .rdLenHi d => htRead 5#6 d
  | .rdDigest w d => htRead (0b0010#4 ++ w) d
  | .rdHex k d => htRead (0b010#3 ++ k) d
  | .rdCmd d => htRead 0#6 d
  | .rdDataW d => htRead 2#6 d
  | .rdDataB d => htRead 3#6 d
  | .wrStatus d => htWrite 1#6 d
  | .wrLenLo d => htWrite 4#6 d
  | .wrLenHi d => htWrite 5#6 d
  | .wrDigest w d => htWrite (0b0010#4 ++ w) d
  | .wrHex k d => htWrite (0b010#3 ++ k) d
  | .rdRsvd6to7 x d => htRead x d
  | .rdRsvd12to15 x d => htRead x d
  | .rdRsvd24to31 x d => htRead x d
  | .rdRsvd32to63 x d => htRead x d
  | .wrRsvd6to7 x d => htWrite x d
  | .wrRsvd12to15 x d => htWrite x d
  | .wrRsvd24to31 x d => htWrite x d
  | .wrRsvd32to63 x d => htWrite x d
  | .unpack => .rcw 0x00#8
  | .accum => .rcw 0x01#8
  | .stepF i => .rcw (0b10#2 ++ i)
  | .stepG i => .rcw (0b10#2 ++ i)
  | .stepH i => .rcw (0b10#2 ++ i)
  | .stepI i => .rcw (0b10#2 ++ i)
  | .rcwRsvd02to03 w => .rcw w
  | .rcwRsvd04to07 w => .rcw w
  | .rcwRsvd08to0F w => .rcw w
  | .rcwRsvd10to1F w => .rcw w
  | .rcwRsvd20to3F w => .rcw w
  | .rcwRsvd40to7F w => .rcw w
  | .rcwRsvdC0toFF w => .rcw w

/-! ### Bytes

The block stores no instructions (20_memory.md R62), so the spec lays no instruction out in bytes. A byte list stands for
an instruction as follows (assumption 7: DESIGN CHOICE, safe): one byte is a control word; five bytes, the lowest first, are a host
transaction in bits 38:0 with bit 39 zero. -/

/-- Why a byte list is no instruction. -/
inductive DecodeError where
  /-- Neither one byte (`RCW`) nor five (`HT`): the two formats are fixed-length (30_encoding.md R70). -/
  | wrongLength (n : Nat)
  /-- Five bytes whose bit 39 is set: a transaction has 39 bits (30_encoding.md R71). -/
  | bit39Set
deriving DecidableEq, Repr

inductive Decoded where
  | instr (i : Instr)
  | rejected (e : DecodeError)
deriving DecidableEq, Repr

/-- The decoder on bytes: total, rejecting by name. -/
def decodeBytes (bs : List Byte) : Decoded :=
  match bs with
  | [w] => .instr (decodeRCW w)
  | [b0, b1, b2, b3, b4] =>
    if b4.getLsbD 7 then .rejected .bit39Set
    else .instr (decodeHT (b4.extractLsb' 0 7 ++ b3 ++ b2 ++ b1 ++ b0))
  | _ => .rejected (.wrongLength bs.length)

/-- The bytes of an encoded instruction, the lowest first. -/
def encodedBytes (e : Encoded) : List Byte :=
  match e with
  | .ht v =>
    [v.extractLsb' 0 8, v.extractLsb' 8 8, v.extractLsb' 16 8, v.extractLsb' 24 8, 0#1 ++ v.extractLsb' 32 7]
  | .rcw w => [w]

/-- The low `n` bytes of `w`, the lowest first. -/
def lowBytes : Nat → Nat → List Byte
  | 0, _ => []
  | n + 1, w => BitVec.ofNat 8 w :: lowBytes n (w / 256)

/-- How many bytes an instruction has that the opcode table gives `nbits` bits: one for `RCW`, five for `HT`. -/
def tableBytes (nbits : Nat) : Nat := if nbits ≤ 8 then 1 else 5

/-- The instruction the decoder reads from an instruction whose bits are `w`, numbered as spec/opcode_table.json numbers
them (bit 0 the least significant); a `w` with a bit beyond the format is no instruction. -/
def decodeTableWord (nbits w : Nat) : Option Instr :=
  if w < 256 ^ tableBytes nbits then
    match decodeBytes (lowBytes (tableBytes nbits) w) with
    | .instr i => some i
    | .rejected _ => none
  else none

/-! ### The opcode table as data -/

/-- The row's mnemonic in spec/opcode_table.json. -/
def Instr.mnemonic (i : Instr) : String :=
  match i with
  | .nop _ => "NOP"
  | .init _ => "INIT"
  | .final _ => "FINAL"
  | .cmdRsvd3 _ => "CMD_RSVD_3"
  | .cmdRsvd4to7 _ _ => "CMD_RSVD_4_7"
  | .cmdRsvd8toF _ _ => "CMD_RSVD_8_F"
  | .dataW _ _ _ _ => "DATA_W"
  | .dataB _ _ => "DATA_B"
  | .rdStatus _ => "RD_STATUS"
  | .rdLenLo _ => "RD_LEN_LO"
  | .rdLenHi _ => "RD_LEN_HI"
  | .rdDigest _ _ => "RD_DIGEST"
  | .rdHex _ _ => "RD_HEX"
  | .rdCmd _ => "RD_CMD"
  | .rdDataW _ => "RD_DATA_W"
  | .rdDataB _ => "RD_DATA_B"
  | .wrStatus _ => "WR_STATUS"
  | .wrLenLo _ => "WR_LEN_LO"
  | .wrLenHi _ => "WR_LEN_HI"
  | .wrDigest _ _ => "WR_DIGEST"
  | .wrHex _ _ => "WR_HEX"
  | .rdRsvd6to7 _ _ => "RD_RSVD_6_7"
  | .rdRsvd12to15 _ _ => "RD_RSVD_12_15"
  | .rdRsvd24to31 _ _ => "RD_RSVD_24_31"
  | .rdRsvd32to63 _ _ => "RD_RSVD_32_63"
  | .wrRsvd6to7 _ _ => "WR_RSVD_6_7"
  | .wrRsvd12to15 _ _ => "WR_RSVD_12_15"
  | .wrRsvd24to31 _ _ => "WR_RSVD_24_31"
  | .wrRsvd32to63 _ _ => "WR_RSVD_32_63"
  | .unpack => "UNPACK"
  | .accum => "ACCUM"
  | .stepF _ => "STEP_F"
  | .stepG _ => "STEP_G"
  | .stepH _ => "STEP_H"
  | .stepI _ => "STEP_I"
  | .rcwRsvd02to03 _ => "RCW_RSVD_02_03"
  | .rcwRsvd04to07 _ => "RCW_RSVD_04_07"
  | .rcwRsvd08to0F _ => "RCW_RSVD_08_0F"
  | .rcwRsvd10to1F _ => "RCW_RSVD_10_1F"
  | .rcwRsvd20to3F _ => "RCW_RSVD_20_3F"
  | .rcwRsvd40to7F _ => "RCW_RSVD_40_7F"
  | .rcwRsvdC0toFF _ => "RCW_RSVD_C0_FF"

/-- One row of the opcode table: a word `v` of the row's format is the row's when `v &&& mask = bits` (30_encoding.md R85). -/
structure OpRow where
  name : String
  bits : Nat
  mask : Nat
deriving DecidableEq, Repr

def OpRow.matches (r : OpRow) (v : Nat) : Bool := v &&& r.mask == r.bits

def htWriteRows : List OpRow :=
  [⟨"NOP", 0x4000000000, 0x7F0000000F⟩, ⟨"INIT", 0x4000000001, 0x7F0000000F⟩, ⟨"FINAL", 0x4000000002, 0x7F0000000F⟩,
   ⟨"CMD_RSVD_3", 0x4000000003, 0x7F0000000F⟩, ⟨"CMD_RSVD_4_7", 0x4000000004, 0x7F0000000C⟩,
   ⟨"CMD_RSVD_8_F", 0x4000000008, 0x7F00000008⟩, ⟨"DATA_W", 0x4200000000, 0x7F00000000⟩,
   ⟨"DATA_B", 0x4300000000, 0x7F00000000⟩, ⟨"WR_STATUS", 0x4100000000, 0x7F00000000⟩,
   ⟨"WR_LEN_LO", 0x4400000000, 0x7F00000000⟩, ⟨"WR_LEN_HI", 0x4500000000, 0x7F00000000⟩,
   ⟨"WR_DIGEST", 0x4800000000, 0x7C00000000⟩, ⟨"WR_HEX", 0x5000000000, 0x7800000000⟩,
   ⟨"WR_RSVD_6_7", 0x4600000000, 0x7E00000000⟩, ⟨"WR_RSVD_12_15", 0x4C00000000, 0x7C00000000⟩,
   ⟨"WR_RSVD_24_31", 0x5800000000, 0x7800000000⟩, ⟨"WR_RSVD_32_63", 0x6000000000, 0x6000000000⟩]

def htReadRows : List OpRow :=
  [⟨"RD_STATUS", 0x0100000000, 0x7F00000000⟩, ⟨"RD_LEN_LO", 0x0400000000, 0x7F00000000⟩,
   ⟨"RD_LEN_HI", 0x0500000000, 0x7F00000000⟩, ⟨"RD_DIGEST", 0x0800000000, 0x7C00000000⟩,
   ⟨"RD_HEX", 0x1000000000, 0x7800000000⟩, ⟨"RD_CMD", 0x0000000000, 0x7F00000000⟩,
   ⟨"RD_DATA_W", 0x0200000000, 0x7F00000000⟩, ⟨"RD_DATA_B", 0x0300000000, 0x7F00000000⟩,
   ⟨"RD_RSVD_6_7", 0x0600000000, 0x7E00000000⟩, ⟨"RD_RSVD_12_15", 0x0C00000000, 0x7C00000000⟩,
   ⟨"RD_RSVD_24_31", 0x1800000000, 0x7800000000⟩, ⟨"RD_RSVD_32_63", 0x2000000000, 0x6000000000⟩]

def rcwRows : List OpRow :=
  [⟨"UNPACK", 0x00, 0xFF⟩, ⟨"ACCUM", 0x01, 0xFF⟩, ⟨"STEP_F", 0x80, 0xF0⟩, ⟨"STEP_G", 0x90, 0xF0⟩,
   ⟨"STEP_H", 0xA0, 0xF0⟩, ⟨"STEP_I", 0xB0, 0xF0⟩, ⟨"RCW_RSVD_02_03", 0x02, 0xFE⟩,
   ⟨"RCW_RSVD_04_07", 0x04, 0xFC⟩, ⟨"RCW_RSVD_08_0F", 0x08, 0xF8⟩, ⟨"RCW_RSVD_10_1F", 0x10, 0xF0⟩,
   ⟨"RCW_RSVD_20_3F", 0x20, 0xE0⟩, ⟨"RCW_RSVD_40_7F", 0x40, 0xC0⟩, ⟨"RCW_RSVD_C0_FF", 0xC0, 0xC0⟩]

/-- The opcode table: the rows of each format. -/
def opcodeRows (f : Format) : List OpRow :=
  match f with
  | .ht => htWriteRows ++ htReadRows
  | .rcw => rcwRows

end Sys2Proof
end

