-- ==== Sys2Proof/Machine/Fetch.lean ====
section
/-! DEFINITION. What the block does next: the block has no program counter (10_state.md R31), so its next work comes from
its inputs and its sequencer. -/

namespace Sys2Proof.Machine

/-- The next piece of work, with the state it starts from. -/
inductive Work where
  /-- Reset has arrived; `waiting` stays at the inputs. -/
  | resetNow (waiting : List Input)
  /-- A compression is under way: the sequencer issues a control word and then moves on. -/
  | sequenced (i : Instr) (s : State)
  /-- The oldest input is taken and its instruction runs. -/
  | run (i : Instr) (s : State)
  /-- Nothing has arrived and nothing is under way. -/
  | wait
deriving DecidableEq, Repr

/-- Reset takes precedence over everything (60_exceptions.md R225, 70_reset_and_hazards.md R252); an access is taken only
when `ESEQ = IDLE` (42_driver.md R160); a compression under way goes on one micro-operation a step (assumption 10: DEDUCED,
safe); accesses are taken in the order the host issued them (20_memory.md R57). -/
def nextWork (s : State) : Work :=
  match s.inputs with
  | .reset :: rest => .resetNow rest
  | inputs =>
    match controlWord s.eseq with
    | some w => .sequenced (decodeRCW w) s
    | none =>
      match inputs with
      | .access v :: rest => .run (decodeHT v) { s with inputs := rest }
      | .control w :: rest => .run (decodeRCW w) { s with inputs := rest }
      | _ => .wait

/-- The input that presents an instruction of `nbits` table bits with the bits `w` (assumption 8: DESIGN CHOICE, safe). -/
def tableInput (nbits w : Nat) : Input :=
  if tableBytes nbits = 1 then .control (BitVec.ofNat 8 w) else .access (BitVec.ofNat 39 w)

/-- `s` with an input put before every other, and no compression under way, so that the next step takes it. -/
def presentInput (x : Input) (s : State) : State := { s with inputs := x :: s.inputs, eseq := .idle }

end Sys2Proof.Machine
end

