-- ==== Sys2Proof/Machine/Step.lean ====
section
/-! DEFINITION. One step of the machine. -/

namespace Sys2Proof.Machine

/-- One step: a reset, one micro-operation of a compression under way, one whole access (20_memory.md R57), or nothing when
nothing waits. -/
def step (s : State) : Host.Outcome State Fault Refusal :=
  match nextWork s with
  | .resetNow waiting => .next (resetEvent waiting)
  | .sequenced i s => mapNext advance (exec i s)
  | .run i s => exec i s
  | .wait => .next s

/-- `s` with the instruction whose bits are `w` put where `step` takes its next one. -/
def State.withFetchWord (s : State) (nbits w : Nat) : State := presentInput (tableInput nbits w) s

end Sys2Proof.Machine
end

