-- ==== Sys2Proof/Machine/Digest.lean ====
section
/-! DEFINITION. The digest as a function of the message alone, with no buffer, counter or phase: `compress(block, ST)` as a
pure function (41_compression.md R120), the padded tail as a byte string (40_padding.md R100 to R102) and `md5state`
(42_driver.md R179). -/

namespace Sys2Proof.Machine

/-! ### One block -/

/-- The sixteen little-endian words of a block (20_memory.md R55). -/
def blockWords (block : List Byte) : Vector Word 16 :=
  Vector.ofFn fun j : Fin 16 =>
    le32 (block.getD (4 * j.val) 0#8) (block.getD (4 * j.val + 1) 0#8) (block.getD (4 * j.val + 2) 0#8)
      (block.getD (4 * j.val + 3) 0#8)

/-- The generic step on the working registers alone (41_compression.md R132). -/
def stepPure (mw : Vector Word 16) (i : BitVec 6) (wk : Quad) : Quad := stepWords (roundFun (roundOf i)) mw i wk

/-- The working registers after the 64 steps. -/
def roundsPure (mw : Vector Word 16) (st : Quad) : Quad :=
  (List.range 64).foldl (fun wk i => stepPure mw (BitVec.ofNat 6 i) wk) st

/-- `compress(block, ST)` (41_compression.md R120). -/
def compressBlock (block : List Byte) (st : Quad) : Quad := st.add (roundsPure (blockWords block) st)

/-! ### The rotating formulation (41_compression.md R142) -/

/-- One step of the rotating form: `n = b + rotl32(a + FUNC[q](b, c, d) + K[i] + MW[g(i)], S[i])`, then
`(a, b, c, d) <- (d, n, b, c)`. -/
def rotatingStep (mw : Vector Word 16) (i : BitVec 6) (q : Quad) : Quad :=
  let n := q.b + rotl32 (q.a + roundFun (roundOf i) q.b q.c q.d + addConst i + mw[msgIndex i]) (rotAmount i)
  ⟨q.d, n, q.b, q.c⟩

/-- The first `n` steps of the rotating form. -/
def rotatingRounds (mw : Vector Word 16) (n : Nat) (st : Quad) : Quad :=
  (List.range n).foldl (fun q i => rotatingStep mw (BitVec.ofNat 6 i) q) st

/-! ### A message -/

/-- The length of the padded tail for a tail of `t` bytes (40_padding.md R101, 90_conflicts.md C1). -/
def paddedLength (t : Nat) : Nat := if t ≤ 55 then 64 else 128

/-- The padded tail: the tail, `0x80`, zeros, and the bit length as eight little-endian bytes (40_padding.md R102, R103,
90_conflicts.md C2). -/
def paddedTail (tail : List Byte) (bits : BitVec 64) : List Byte :=
  tail ++ [0x80#8] ++ List.replicate (paddedLength tail.length - 9 - tail.length) 0#8 ++ le64 bits

/-- The first `n` blocks of 64 bytes. -/
def blocksOf : Nat → List Byte → List (List Byte)
  | 0, _ => []
  | n + 1, m => m.take 64 :: blocksOf n (m.drop 64)

/-- `compress` folded over the complete blocks of a byte sequence, from `IV` (10_state.md R42). -/
def chainOf (m : List Byte) : Quad := (blocksOf (m.length / 64) m).foldl (fun st b => compressBlock b st) iv

/-- The whole blocks of the message followed by its padded tail (42_driver.md R179). -/
def paddedMessage (m : List Byte) : List Byte :=
  let whole := m.length - m.length % 64
  m.take whole ++ paddedTail (m.drop whole) (BitVec.ofNat 64 (8 * m.length))

/-- `md5state(m)` (42_driver.md R179). -/
def md5state (m : List Byte) : Quad := chainOf (paddedMessage m)

/-- The 32 characters of a message's digest, the source's `hashBytes(m)` (42_driver.md R179). -/
def md5text (m : List Byte) : List Byte := hexChars (md5state m)

end Sys2Proof.Machine
end

