-- ==== Sys2Proof/Config.lean ====
section
/-! DEFINITION. What the platform fixes and no rule of the block depends on. -/

namespace Sys2Proof

/-- `MD5_BASE`, the platform address of the register window: an open parameter (00_scope.md R9, 20_memory.md R51, R64;
assumption 9: DESIGN CHOICE, safe). It has no body, so nothing can be proved of its value. -/
opaque Config.md5Base : Nat

end Sys2Proof
end

