-- ==== Sys2Proof/Machine/HostProgram.lean ====
section
/-! DEFINITION. The host's side of the interface: register names, transactions by name, the pseudo-instructions and the
window's addresses (20_memory.md R51, R52; 30_encoding.md R83, R84). -/

namespace Sys2Proof.Machine

/-- The registers of the window, by name (20_memory.md R52; assumption 11: DEDUCED, safe). -/
inductive RegName where
  | cmd
  | status
  | dataW
  | dataB
  | lenLo
  | lenHi
  | digest (w : BitVec 2)
  | hex (k : BitVec 3)
  /-- `@<n>`: a word index (30_encoding.md R83). -/
  | at (n : Widx)
deriving DecidableEq, Repr

/-- The word index of a register (20_memory.md R52). -/
def widxOf (r : RegName) : Widx :=
  match r with
  | .cmd => 0#6
  | .status => 1#6
  | .dataW => 2#6
  | .dataB => 3#6
  | .lenLo => 4#6
  | .lenHi => 5#6
  | .digest w => 0b0010#4 ++ w
  | .hex k => 0b010#3 ++ k
  | .at n => n

/-- `RD <reg>`, in its canonical encoding `WDATA = 0` (30_encoding.md R72, R83). -/
def rd (r : RegName) : HtWord := htWord 0#1 (widxOf r) 0#32

/-- `WR <reg>, <value>` (30_encoding.md R83). -/
def wr (r : RegName) (v : Word) : HtWord := htWord 1#1 (widxOf r) v

/-- The pseudo-instructions of 30_encoding.md R84. -/
inductive Pseudo where
  | nop
  | init
  | final
  | putW (v : Word)
  | putB (v : Byte)
  | putS (bs : List Byte)
  | getDig
  | getHex
  | hash (bs : List Byte)
deriving DecidableEq, Repr

/-- `PUTS`: a DATA_W write for every whole group of four bytes, then a DATA_B write for each byte left (30_encoding.md R84). -/
def putBytes (bs : List Byte) : List HtWord :=
  match bs with
  | b0 :: b1 :: b2 :: b3 :: rest => wr .dataW (le32 b0 b1 b2 b3) :: putBytes rest
  | rest => rest.map fun b => wr .dataB (b.setWidth 32)

/-- The exact expansion of a pseudo-instruction (30_encoding.md R84). -/
def expand (p : Pseudo) : List HtWord :=
  match p with
  | .nop => [wr .cmd 0x0#32]
  | .init => [wr .cmd 0x1#32]
  | .final => [wr .cmd 0x2#32]
  | .putW v => [wr .dataW v]
  | .putB v => [wr .dataB (v.setWidth 32)]
  | .putS bs => putBytes bs
  | .getDig => [rd (.digest 0#2), rd (.digest 1#2), rd (.digest 2#2), rd (.digest 3#2)]
  | .getHex => (List.range 8).map fun k => rd (.hex (BitVec.ofNat 3 k))
  | .hash bs => [wr .cmd 0x1#32] ++ putBytes bs ++ [wr .cmd 0x2#32]

/-- The byte offset of a word from the window's base (20_memory.md R51). -/
def byteOffset (widx : Widx) : Nat := 4 * widx.toNat

/-- The platform address of a word of the window (20_memory.md R51, R64). -/
def windowAddress (widx : Widx) : Nat := Config.md5Base + byteOffset widx

/-- The word an aligned platform address inside the window selects; no word for any other address: the port has no
byte-offset bits (20_memory.md R51, R58). -/
def widxAt (address : Nat) : Option Widx :=
  if Config.md5Base ≤ address ∧ address < Config.md5Base + 256 ∧ (address - Config.md5Base) % 4 = 0 then
    some (BitVec.ofNat 6 ((address - Config.md5Base) / 4))
  else none

end Sys2Proof.Machine
end

