-- ==== Sys2Proof/Safety.lean ====
section
/-! DEFINITION. The terms claims use: what a well-behaved state is, what a message in progress is, what the host can see. -/

namespace Sys2Proof.Safety

open Sys2Proof.Machine

/-! ### Kinds of instructions -/

/-- A host transaction, as against a control word. -/
def isAccess (i : Instr) : Bool :=
  match encode i with
  | .ht _ => true
  | .rcw _ => false

/-- A host read (`WE = 0`). -/
def isRead (i : Instr) : Bool :=
  match i with
  | .rdStatus _ | .rdLenLo _ | .rdLenHi _ | .rdDigest _ _ | .rdHex _ _ => true
  | .rdCmd _ | .rdDataW _ | .rdDataB _ => true
  | .rdRsvd6to7 _ _ | .rdRsvd12to15 _ _ | .rdRsvd24to31 _ _ | .rdRsvd32to63 _ _ => true
  | _ => false

/-- INIT. -/
def isInit (i : Instr) : Bool :=
  match i with
  | .init _ => true
  | _ => false

/-- FINAL. -/
def isFinal (i : Instr) : Bool :=
  match i with
  | .final _ => true
  | _ => false

/-- A data write. -/
def isData (i : Instr) : Bool :=
  match i with
  | .dataW _ _ _ _ | .dataB _ _ => true
  | _ => false

/-- A CMD write with a reserved command code. -/
def isReservedCmd (i : Instr) : Bool :=
  match i with
  | .cmdRsvd3 _ | .cmdRsvd4to7 _ _ | .cmdRsvd8toF _ _ => true
  | _ => false

/-- A reserved control word. -/
def isReservedControl (i : Instr) : Bool :=
  match i with
  | .rcwRsvd02to03 _ | .rcwRsvd04to07 _ | .rcwRsvd08to0F _ | .rcwRsvd10to1F _ => true
  | .rcwRsvd20to3F _ | .rcwRsvd40to7F _ | .rcwRsvdC0toFF _ => true
  | _ => false

/-- The message bytes a transaction hands over, in order (42_driver.md R168, R169). -/
def messageBytes (i : Instr) : List Byte :=
  match i with
  | .dataW b0 b1 b2 b3 => [b0, b1, b2, b3]
  | .dataB b _ => [b]
  | _ => []

/-- The transactions that may stand between INIT and FINAL in 42_driver.md R178: data writes, reads, NOPs and the accesses
of R175 to R177. -/
def mayStandInMessage (i : Instr) : Bool :=
  isAccess i && !isInit i && !isFinal i && !isReservedCmd i

/-- The message bytes of a sequence of transactions. -/
def messageOf (ws : List HtWord) : List Byte := ws.flatMap fun w => messageBytes (decodeHT w)

/-- The transactions `v` with `v & mask = bits` are exactly those whose instruction has `p`: how a rule of the spec gives an
encoding. -/
def EncodedAs (bits mask : Nat) (p : Instr → Prop) : Prop := ∀ v : HtWord, v.toNat &&& mask = bits ↔ p (decodeHT v)

/-- The same for a control word. -/
def ControlEncodedAs (bits mask : Nat) (p : Instr → Prop) : Prop :=
  ∀ w : RcwWord, w.toNat &&& mask = bits ↔ p (decodeRCW w)

/-- The instructions of a list one after another, stopping at the first that stops. -/
def execAll : List Instr → State → Host.Outcome State Fault Refusal
  | [], s => .next s
  | i :: is, s =>
    match exec i s with
    | .next t => execAll is t
    | .fault r => .fault r
    | .refused r => .refused r

/-! ### States -/

/-- An input a host can give: an access or reset, never a control word (30_encoding.md R70). -/
def isHostInput (x : Input) : Bool :=
  match x with
  | .reset | .access _ => true
  | .control _ => false

/-- Between two accesses of a host: the sequencer is idle and only a host's inputs wait (10_state.md R29). -/
def Quiet (s : State) : Prop := s.eseq = .idle ∧ s.inputs.all isHostInput = true

/-- ERR_LEN is set exactly in FAILED, and no flag that a data write sets is set in ABSORB: the phase is entered only by
INIT, which clears them (10_state.md R27, R28; 60_exceptions.md R222, R223, R228). -/
def PhaseConsistent (s : State) : Prop :=
  (s.errLen = true ↔ s.phase = .failed) ∧ (s.phase = .absorb → s.errSeq = false)

/-- The block holds the open message `m`: its count, its tail in `BUF`, its complete blocks compressed (10_state.md R42). -/
def HoldsMessage (s : State) (m : List Byte) : Prop :=
  s.cnt.toNat = m.length ∧
    (∀ k : Fin 64, k.val < m.length % 64 → m[m.length - m.length % 64 + k.val]? = some (s.buf.read k)) ∧
    s.st = chainOf m

/-- What `PHASE` says of `ST` and `BUF` when `m` is the message absorbed since INIT: in ABSORB and FAILED the block holds
`m`, in DONE `ST` is the digest of `m`, and in IDLE nothing has been absorbed (10_state.md R27, R42; 42_driver.md R174). -/
def DigestConsistent (m : List Byte) (s : State) : Prop :=
  match s.phase with
  | .idle => m = [] ∧ HoldsMessage s []
  | .absorb => HoldsMessage s m
  | .failed => HoldsMessage s m
  | .done => s.cnt.toNat = m.length ∧ s.st = md5state m

/-- The states a host's use of the block can meet when `m` is the message absorbed since INIT: everything above together,
with `BUF` in its canonical form. -/
def Sound (m : List Byte) (s : State) : Prop := s.buf.wf = true ∧ Quiet s ∧ PhaseConsistent s ∧ DigestConsistent m s

/-- A data write of `i` with `m` absorbed is accepted: the phase is ABSORB and the bytes fit (42_driver.md R166). -/
def accepts (m : List Byte) (s : State) (i : Instr) : Bool :=
  isData i && s.phase == .absorb && m.length + (messageBytes i).length ≤ maxLen

/-- The message after an access that meets the block in `s` with `m` absorbed: INIT opens an empty one, an accepted data
write appends its bytes, every other access leaves it (42_driver.md R163, R166 to R169). -/
def messageAfterAccess (m : List Byte) (s : State) (i : Instr) : List Byte :=
  if isInit i then [] else if accepts m s i then m ++ messageBytes i else m

/-- The message after the next step: reset leaves none absorbed, and an access does what `messageAfterAccess` says. -/
def messageAfter (m : List Byte) (s : State) : List Byte :=
  match s.inputs with
  | .reset :: _ => []
  | .access v :: _ => messageAfterAccess m s (decodeHT v)
  | _ => m

/-- A digest may be relied on: `PHASE = DONE` and no flag is set (60_exceptions.md R237). -/
def DigestReady (s : State) : Prop :=
  s.phase = .done ∧ s.errLen = false ∧ s.errSeq = false ∧ s.errCmd = false

/-- Two states a host cannot tell apart: they may differ in `WK`, in `MW`, in the bytes of `BUF` at and above
`CNT mod 64`, and in nothing else that the block keeps (10_state.md R41). The count of compressions is the model's. -/
def SameToHost (s t : State) : Prop :=
  s.st = t.st ∧ s.cnt = t.cnt ∧ s.phase = t.phase ∧ s.errLen = t.errLen ∧ s.errSeq = t.errSeq ∧ s.errCmd = t.errCmd ∧
    s.eseq = t.eseq ∧ s.inputs = t.inputs ∧ s.rdata = t.rdata ∧
    (s.phase = .absorb → ∀ k : Fin 64, k.val < s.cnt.toNat % 64 → s.buf.read k = t.buf.read k)

end Sys2Proof.Safety
end

