-- ==== Sys2Proof/Certificates/Slice0/Obligations.lean ====
section
/-! DEFINITION. The statements for the provers. Each docstring names the rule of spec/ the statement formalises. -/

open Sys2Proof Sys2Proof.Machine Sys2Proof.Safety

/-! ### Encoding and decoding -/

/-- Words written out from the spec's encodings decode to the instructions they stand for (30_encoding.md R71, R79;
95_test_vectors.md Part 3). -/
def Obligations.SampleWordsDecode : Prop :=
  decodeHT 0x4000000001#39 = .init 0#28 ∧ decodeHT 0x40FFFFFFF1#39 = .init 0xFFFFFFF#28 ∧
    decodeHT 0x4000000007#39 = .cmdRsvd4to7 7#4 0#28 ∧
    decodeHT 0x4264636261#39 = .dataW 0x61#8 0x62#8 0x63#8 0x64#8 ∧
    decodeHT 0x4300000061#39 = .dataB 0x61#8 0#24 ∧ decodeHT 0x0100000000#39 = .rdStatus 0#32 ∧
    decodeHT 0x0B00000000#39 = .rdDigest 3#2 0#32 ∧ decodeHT 0x1700000000#39 = .rdHex 7#3 0#32 ∧
    decodeHT 0x41FFFFFFFF#39 = .wrStatus 0xFFFFFFFF#32 ∧ decodeHT 0x3F00000000#39 = .rdRsvd32to63 63#6 0#32 ∧
    decodeHT 0x4600000005#39 = .wrRsvd6to7 6#6 5#32 ∧ decodeRCW 0x00#8 = .unpack ∧ decodeRCW 0x01#8 = .accum ∧
    decodeRCW 0xB0#8 = .stepI 48#6 ∧ decodeRCW 0xC0#8 = .rcwRsvdC0toFF 0xC0#8

/-- Decode after encode: every well-formed instruction comes back, with every operand (30_encoding.md sections 1 to 4). -/
def Obligations.DecodeOfEncode : Prop :=
  ∀ i : Instr, WellFormed i = true → decodeEncoded (encode i) = i

/-- Encode after decode: every transaction and every control word is the encoding of one well-formed instruction, so no bit
of it is dropped (30_encoding.md sections 1 to 4). -/
def Obligations.EncodeOfDecode : Prop :=
  (∀ v : HtWord, WellFormed (decodeHT v) = true ∧ encode (decodeHT v) = .ht v) ∧
    (∀ w : RcwWord, WellFormed (decodeRCW w) = true ∧ encode (decodeRCW w) = .rcw w)

/-- 30_encoding.md R85: exactly one row of the opcode table matches a word, and it is the row of the instruction the
decoder reads. The spec marks the uniqueness as derived from R73. -/
def Obligations.ExactlyOneRowMatches : Prop :=
  (∀ v : HtWord, ((opcodeRows .ht).filter fun r => r.matches v.toNat).map OpRow.name = [(decodeHT v).mnemonic]) ∧
    (∀ w : RcwWord, ((opcodeRows .rcw).filter fun r => r.matches w.toNat).map OpRow.name = [(decodeRCW w).mnemonic])

/-- The model's layout in bytes (its own choice, assumption 7): encoded bytes decode back, and a byte list of any length but
one or five is rejected by name. -/
def Obligations.BytesRoundTrip : Prop :=
  (∀ i : Instr, WellFormed i = true → decodeBytes (encodedBytes (encode i)) = .instr i) ∧
    (∀ bs : List Byte, bs.length ≠ 1 → bs.length ≠ 5 → decodeBytes bs = .rejected (.wrongLength bs.length))

/-- 30_encoding.md R72: a read with any WDATA behaves exactly as the canonical read with the same WIDX. -/
def Obligations.ReadIgnoresData : Prop :=
  ∀ (x : Widx) (d : Word) (s : State),
    exec (decodeHT (htWord 0#1 x d)) s = exec (decodeHT (htWord 0#1 x 0#32)) s

/-- The ignored bits of a CMD write and of a DATA_B write have no effect (30_encoding.md R74, R76, R77). -/
def Obligations.WriteIgnoresUpperBits : Prop :=
  ∀ (d d' : Word) (s : State),
    (d.extractLsb' 0 4 = d'.extractLsb' 0 4 →
      exec (decodeHT (htWord 1#1 0#6 d)) s = exec (decodeHT (htWord 1#1 0#6 d')) s) ∧
    (d.extractLsb' 0 8 = d'.extractLsb' 0 8 →
      exec (decodeHT (htWord 1#1 3#6 d)) s = exec (decodeHT (htWord 1#1 3#6 d')) s)

/-- 00_scope.md R12: the byte-order primitives as numbers. -/
def Obligations.ByteOrderPrimitives : Prop :=
  (∀ b0 b1 b2 b3 : Byte,
    (le32 b0 b1 b2 b3).toNat = b0.toNat + 2 ^ 8 * b1.toNat + 2 ^ 16 * b2.toNat + 2 ^ 24 * b3.toNat) ∧
  (∀ n : BitVec 64, (le64 n).map BitVec.toNat = (List.range 8).map fun j => n.toNat / 2 ^ (8 * j) % 256) ∧
  (∀ w : Word, (bytes32 w).map BitVec.toNat = (List.range 4).map fun j => w.toNat / 2 ^ (8 * j) % 256)

/-- 20_memory.md R51: word `WIDX` stands at byte offset `4 * WIDX` of a window of 256 bytes at `MD5_BASE`. That no
other address, a misaligned one among them, selects a word is the model's choice (assumption 9: R58 leaves such
accesses to the platform). -/
def Obligations.WindowAddresses : Prop :=
  (∀ x : Widx, windowAddress x = Config.md5Base + 4 * x.toNat ∧ windowAddress x < Config.md5Base + 256 ∧
    widxAt (windowAddress x) = some x) ∧
  (∀ (a : Nat) (x : Widx), widxAt a = some x → a = windowAddress x)

/-! ### The step -/

/-- A step runs the decoded instruction. An idle block takes the oldest access and runs what it decodes to
(42_driver.md R160, 20_memory.md R57). The rest is the model's choice: a control word among the inputs runs as what it
decodes to (assumption 4), a compression under way issues its control word of 30_encoding.md R79, runs what that
decodes to and moves on, one a step (assumption 10), and with nothing at the inputs the block waits (assumption 8). -/
def Obligations.StepRunsDecoded : Prop :=
  ∀ s : State,
    (∀ v rest, s.eseq = .idle → s.inputs = .access v :: rest →
      WellFormed (decodeHT v) = true ∧ step s = exec (decodeHT v) { s with inputs := rest }) ∧
    (∀ w rest, s.eseq = .idle → s.inputs = .control w :: rest →
      WellFormed (decodeRCW w) = true ∧ step s = exec (decodeRCW w) { s with inputs := rest }) ∧
    (∀ w, controlWord s.eseq = some w → (∀ rest, s.inputs ≠ .reset :: rest) →
      step s = mapNext advance (exec (decodeRCW w) s)) ∧
    (s.eseq = .idle → s.inputs = [] → step s = .next s)

/-- A word put where the step takes its next instruction is the instruction the next step runs (the model's interface,
assumption 8). -/
def Obligations.PresentedWordRuns : Prop :=
  ∀ (s : State) (nbits w : Nat) (i : Instr), decodeTableWord nbits w = some i →
    step (s.withFetchWord nbits w) = exec i { s with eseq := .idle }

/-- The values after reset that 70_reset_and_hazards.md R251 gives: `ST = IV`, `CNT = 0`, IDLE, no flag, an idle sequencer,
and the registers that read from them. -/
def Obligations.ResetValues : Prop :=
  State.reset.st = ⟨0x67452301#32, 0xefcdab89#32, 0x98badcfe#32, 0x10325476#32⟩ ∧ State.reset.cnt = 0#61 ∧
    State.reset.phase = .idle ∧ State.reset.errLen = false ∧ State.reset.errSeq = false ∧
    State.reset.errCmd = false ∧ State.reset.eseq = .idle ∧ statusWord State.reset = 0#32 ∧
    lenLo State.reset = 0#32 ∧ lenHi State.reset = 0#32 ∧
    hexChars State.reset.st =
      [0x30#8, 0x31#8, 0x32#8, 0x33#8, 0x34#8, 0x35#8, 0x36#8, 0x37#8, 0x38#8, 0x39#8, 0x61#8, 0x62#8, 0x63#8, 0x64#8,
       0x65#8, 0x66#8, 0x66#8, 0x65#8, 0x64#8, 0x63#8, 0x62#8, 0x61#8, 0x39#8, 0x38#8, 0x37#8, 0x36#8, 0x35#8, 0x34#8,
       0x33#8, 0x32#8, 0x31#8, 0x30#8]

/-- Reset takes precedence over everything, also over a compression under way, and leaves the state of reset whatever had
run (70_reset_and_hazards.md R250 to R252; the values of `WK`, `MW` and `BUF` are the model's, assumption 1). -/
def Obligations.ResetTakesPrecedence : Prop :=
  ∀ (s : State) (rest : List Input), s.inputs = .reset :: rest →
    ∃ t, step s = .next t ∧ t.st = iv ∧ t.cnt = 0#61 ∧ t.phase = .idle ∧ t.errLen = false ∧ t.errSeq = false ∧
      t.errCmd = false ∧ t.eseq = .idle ∧ t.rdata = none ∧ t.inputs = rest

/-! ### Commands -/

/-- 42_driver.md R162: NOP in every phase changes no state; it only returns nothing. What the access returns is the
model's field `rdata` (assumption 3). -/
def Obligations.NopChangesNothing : Prop :=
  EncodedAs 0x4000000000 0x7F0000000F (fun i => ∃ ign, i = .nop ign) ∧
    ∀ (ign : BitVec 28) (s : State), exec (.nop ign) s = .next { s with rdata := none }

/-- 42_driver.md R163: INIT in every phase loads `IV`, clears the count and every flag and opens a computation; nothing else
changes, `BUF` among it. -/
def Obligations.InitOpensComputation : Prop :=
  EncodedAs 0x4000000001 0x7F0000000F (fun i => ∃ ign, i = .init ign) ∧
    ∀ (ign : BitVec 28) (s : State),
      exec (.init ign) s = .next
        { s with
          st := ⟨0x67452301#32, 0xefcdab89#32, 0x98badcfe#32, 0x10325476#32⟩
          cnt := 0#61
          phase := .absorb
          errLen := false
          errSeq := false
          errCmd := false
          rdata := none }

/-- 42_driver.md R165, 60_exceptions.md R224: a reserved command code sets ERR_CMD in every phase and has no other effect. -/
def Obligations.ReservedCommandSetsFlag : Prop :=
  EncodedAs 0x4000000003 0x7F0000000F (fun i => ∃ ign, i = .cmdRsvd3 ign) ∧
    EncodedAs 0x4000000004 0x7F0000000C (fun i => ∃ op ign, i = .cmdRsvd4to7 op ign) ∧
    EncodedAs 0x4000000008 0x7F00000008 (fun i => ∃ op ign, i = .cmdRsvd8toF op ign) ∧
    ∀ (op : BitVec 4) (ign : BitVec 28) (s : State),
      exec (.cmdRsvd3 ign) s = .next { s with errCmd := true, rdata := none } ∧
      exec (.cmdRsvd4to7 op ign) s = .next { s with errCmd := true, rdata := none } ∧
      exec (.cmdRsvd8toF op ign) s = .next { s with errCmd := true, rdata := none }

/-- 60_exceptions.md R222: a data write or FINAL outside ABSORB sets ERR_SEQ; nothing is absorbed and nothing else
changes. -/
def Obligations.OutOfPhaseSetsFlag : Prop :=
  ∀ (b0 b1 b2 b3 : Byte) (g : BitVec 24) (ign : BitVec 28) (s : State), s.phase ≠ .absorb →
    exec (.dataW b0 b1 b2 b3) s = .next { s with errSeq := true, rdata := none } ∧
    exec (.dataB b0 g) s = .next { s with errSeq := true, rdata := none } ∧
    exec (.final ign) s = .next { s with errSeq := true, rdata := none }

/-- FINAL in ABSORB compresses the blocks of the padded tail into `ST`, in order, and publishes the digest; the count and
the flags stay, and `BUF` holds the last padded block (42_driver.md R164, 40_padding.md R106). -/
def Obligations.FinalPadsAndPublishes : Prop :=
  EncodedAs 0x4000000002 0x7F0000000F (fun i => ∃ ign, i = .final ign) ∧
  ∀ (ign : BitVec 28) (s : State), s.phase = .absorb → s.buf.wf = true →
    let p := paddedTail (s.buf.bytes.take (s.cnt.toNat % 64)) (BitVec.ofNat 64 (8 * s.cnt.toNat))
    ∃ t, exec (.final ign) s = .next t ∧
      t.st = (blocksOf (p.length / 64) p).foldl (fun st b => compressBlock b st) s.st ∧
      t.buf.bytes = p.drop (p.length - 64) ∧ t.buf.wf = true ∧ t.phase = .done ∧ t.cnt = s.cnt ∧
      t.errLen = s.errLen ∧ t.errSeq = s.errSeq ∧ t.errCmd = s.errCmd ∧ t.eseq = .idle ∧ t.inputs = s.inputs ∧
      t.rdata = none ∧ t.compressions = s.compressions + (if s.cnt.toNat % 64 ≤ 55 then 1 else 2)

/-! ### Data writes -/

/-- 42_driver.md R166: the phase is checked before the length, a refused write absorbs none of its bytes and records its
error, and an accepted write absorbs all of them. -/
def Obligations.DataWriteAcceptance : Prop :=
  ∀ (i : Instr) (s : State), isData i = true →
    (s.phase ≠ .absorb → exec i s = .next { s with errSeq := true, rdata := none }) ∧
    (s.phase = .absorb → maxLen < s.cnt.toNat + (messageBytes i).length →
      exec i s = .next { s with errLen := true, phase := .failed, rdata := none }) ∧
    (s.phase = .absorb → s.cnt.toNat + (messageBytes i).length ≤ maxLen →
      ∃ t, exec i s = .next t ∧ t.cnt.toNat = s.cnt.toNat + (messageBytes i).length ∧ t.phase = .absorb ∧
        t.errLen = s.errLen ∧ t.errSeq = s.errSeq ∧ t.errCmd = s.errCmd ∧ t.inputs = s.inputs ∧ t.rdata = none)

/-- 42_driver.md R167: an accepted byte goes to `BUF[CNT mod 64]` and is counted, every other byte of `BUF` stays, and the
block is compressed exactly when its 64th byte arrives. -/
def Obligations.ByteGoesToTail : Prop :=
  ∀ (b : Byte) (g : BitVec 24) (s : State), s.phase = .absorb → s.cnt.toNat + 1 ≤ maxLen → s.buf.wf = true →
    s.eseq = .idle →
    ∃ t, exec (.dataB b g) s = .next t ∧ t.cnt.toNat = s.cnt.toNat + 1 ∧ t.buf.wf = true ∧
      (∀ k : Fin 64, t.buf.read k = if k.val = s.cnt.toNat % 64 then b else s.buf.read k) ∧
      (if (s.cnt.toNat + 1) % 64 = 0 then
        t.st = compressBlock t.buf.bytes s.st ∧ t.compressions = s.compressions + 1
      else t.st = s.st ∧ t.wk = s.wk ∧ t.mw = s.mw ∧ t.compressions = s.compressions) ∧
      t.phase = s.phase ∧ t.errLen = s.errLen ∧ t.errSeq = s.errSeq ∧ t.errCmd = s.errCmd ∧ t.eseq = .idle ∧
      t.inputs = s.inputs ∧ t.rdata = none

/-- An accepted DATA_W absorbs its four bytes as four DATA_B writes would, `WDATA[7:0]` first, across the end of a block
too (42_driver.md R168, 30_encoding.md R75). -/
def Obligations.WordIsFourBytes : Prop :=
  EncodedAs 0x4200000000 0x7F00000000 (fun i => ∃ b0 b1 b2 b3, i = .dataW b0 b1 b2 b3) ∧
  EncodedAs 0x4300000000 0x7F00000000 (fun i => ∃ b g, i = .dataB b g) ∧
  (∀ d : Word, decodeHT (htWord 1#1 2#6 d) =
    .dataW (d.extractLsb' 0 8) (d.extractLsb' 8 8) (d.extractLsb' 16 8) (d.extractLsb' 24 8)) ∧
  ∀ (b0 b1 b2 b3 : Byte) (g0 g1 g2 g3 : BitVec 24) (s : State), s.phase = .absorb → s.cnt.toNat + 4 ≤ maxLen →
    ∃ t, exec (.dataW b0 b1 b2 b3) s = .next t ∧
      execAll [.dataB b0 g0, .dataB b1 g1, .dataB b2 g2, .dataB b3 g3] s = .next t

/-- A word written to DATA_W at a multiple of four bytes becomes, unchanged, the message word UNPACK forms from it
(20_memory.md R56). The spec marks this as derived from R168 and R121. -/
def Obligations.AlignedWordIsMessageWord : Prop :=
  ∀ (d : Word) (s : State), s.phase = .absorb → s.cnt.toNat + 4 ≤ maxLen → s.cnt.toNat % 4 = 0 → s.buf.wf = true →
    ∃ t u, exec (decodeHT (htWord 1#1 2#6 d)) s = .next t ∧ exec .unpack t = .next u ∧
      u.mw[s.cnt.toNat % 64 / 4]'(by omega) = d

/-! ### Reads and benign accesses -/

/-- 42_driver.md R171: what RD STATUS returns, field by field (10_state.md R34); it changes nothing. -/
def Obligations.ReadStatusFields : Prop :=
  EncodedAs 0x0100000000 0x7F00000000 (fun i => ∃ d, i = .rdStatus d) ∧
  ∀ (d : Word) (s : State), ∃ v : Word, exec (.rdStatus d) s = .next { s with rdata := some v } ∧
    v.extractLsb' 0 2 = (match s.phase with | .idle => 0#2 | .absorb => 1#2 | .done => 2#2 | .failed => 3#2) ∧
    v.getLsbD 2 = s.errLen ∧ v.getLsbD 3 = s.errSeq ∧ v.getLsbD 4 = s.errCmd ∧ v.extractLsb' 5 3 = 0#3 ∧
    (v.extractLsb' 8 6).toNat = s.cnt.toNat % 64 ∧ v.extractLsb' 14 18 = 0#18

/-- 42_driver.md R172, R173: RD LEN_LO returns the low 32 bits of `CNT`, RD LEN_HI the bits above; they change nothing. -/
def Obligations.ReadLength : Prop :=
  EncodedAs 0x0400000000 0x7F00000000 (fun i => ∃ d, i = .rdLenLo d) ∧
  EncodedAs 0x0500000000 0x7F00000000 (fun i => ∃ d, i = .rdLenHi d) ∧
  ∀ (d : Word) (s : State), ∃ lo hi : Word,
    exec (.rdLenLo d) s = .next { s with rdata := some lo } ∧ lo.toNat = s.cnt.toNat % 2 ^ 32 ∧
    exec (.rdLenHi d) s = .next { s with rdata := some hi } ∧ hi.toNat = s.cnt.toNat / 2 ^ 32

/-- 42_driver.md R174: RD DIGEST_A..D returns the live `ST[w]` in every phase and changes nothing. -/
def Obligations.ReadDigestIsLive : Prop :=
  EncodedAs 0x0800000000 0x7C00000000 (fun i => ∃ w d, i = .rdDigest w d) ∧
  (∀ (w : BitVec 2) (d : Word), decodeHT (htWord 0#1 (0b0010#4 ++ w) d) = .rdDigest w d) ∧
  ∀ (d : Word) (s : State),
    exec (.rdDigest 0#2 d) s = .next { s with rdata := some s.st.a } ∧
    exec (.rdDigest 1#2 d) s = .next { s with rdata := some s.st.b } ∧
    exec (.rdDigest 2#2 d) s = .next { s with rdata := some s.st.c } ∧
    exec (.rdDigest 3#2 d) s = .next { s with rdata := some s.st.d }

/-- 43_hex_encoder.md R202: HEX(2w) renders bytes 0 and 1 of word `w`, HEX(2w+1) bytes 2 and 3, each high nibble
first, the first character in the lowest byte. The spec marks this form as derived from R201 and R202. -/
def Obligations.ReadHexRendersLiveState : Prop :=
  EncodedAs 0x1000000000 0x7800000000 (fun i => ∃ k d, i = .rdHex k d) ∧
  ∀ (w : BitVec 2) (d : Word) (s : State),
    let x := match w.toNat with | 0 => s.st.a | 1 => s.st.b | 2 => s.st.c | _ => s.st.d
    let char := fun lo => hexChar (x.extractLsb' lo 4)
    let even : Word := char 8 ++ char 12 ++ char 0 ++ char 4
    let odd : Word := char 24 ++ char 28 ++ char 16 ++ char 20
    exec (.rdHex (w ++ 0#1) d) s = .next { s with rdata := some even } ∧
    exec (.rdHex (w ++ 1#1) d) s = .next { s with rdata := some odd }

/-- 43_hex_encoder.md R201: the hex string, character by character. The spec marks the order of the two digits of a
byte as derived from the test vectors. -/
def Obligations.HexStringOrder : Prop :=
  ∀ (st : Quad) (w k : Fin 4),
    let x := match w.val with | 0 => st.a | 1 => st.b | 2 => st.c | _ => st.d
    (hexChars st)[8 * w.val + 2 * k.val]? = some (hexChar (x.extractLsb' (8 * k.val + 4) 4)) ∧
    (hexChars st)[8 * w.val + 2 * k.val + 1]? = some (hexChar (x.extractLsb' (8 * k.val) 4))

/-- 43_hex_encoder.md R200, R204: a nibble's character is its lowercase hex digit, and every rendering has 32
characters, each in `0-9a-f`. The spec marks the character codes as general knowledge and R204 as derived. -/
def Obligations.HexIsLowercase : Prop :=
  (∀ n : BitVec 4, (n.toNat ≤ 9 → (hexChar n).toNat = 0x30 + n.toNat) ∧
    (10 ≤ n.toNat → (hexChar n).toNat = 0x61 + (n.toNat - 10))) ∧
  ∀ st : Quad, (hexChars st).length = 32 ∧
    ∀ c ∈ hexChars st, (0x30 ≤ c.toNat ∧ c.toNat ≤ 0x39) ∨ (0x61 ≤ c.toNat ∧ c.toNat ≤ 0x66)

/-- 42_driver.md R175, R177: a read of a write-only register or of a reserved index returns 0 and changes nothing. -/
def Obligations.BenignReadsReturnZero : Prop :=
  EncodedAs 0x0000000000 0x7F00000000 (fun i => ∃ d, i = .rdCmd d) ∧
  EncodedAs 0x0200000000 0x7F00000000 (fun i => ∃ d, i = .rdDataW d) ∧
  EncodedAs 0x0300000000 0x7F00000000 (fun i => ∃ d, i = .rdDataB d) ∧
  EncodedAs 0x0600000000 0x7E00000000 (fun i => ∃ x d, i = .rdRsvd6to7 x d) ∧
  EncodedAs 0x0C00000000 0x7C00000000 (fun i => ∃ x d, i = .rdRsvd12to15 x d) ∧
  EncodedAs 0x1800000000 0x7800000000 (fun i => ∃ x d, i = .rdRsvd24to31 x d) ∧
  EncodedAs 0x2000000000 0x6000000000 (fun i => ∃ x d, i = .rdRsvd32to63 x d) ∧
  ∀ (x : Widx) (d : Word) (s : State),
    exec (.rdCmd d) s = .next { s with rdata := some 0#32 } ∧
    exec (.rdDataW d) s = .next { s with rdata := some 0#32 } ∧
    exec (.rdDataB d) s = .next { s with rdata := some 0#32 } ∧
    exec (.rdRsvd6to7 x d) s = .next { s with rdata := some 0#32 } ∧
    exec (.rdRsvd12to15 x d) s = .next { s with rdata := some 0#32 } ∧
    exec (.rdRsvd24to31 x d) s = .next { s with rdata := some 0#32 } ∧
    exec (.rdRsvd32to63 x d) s = .next { s with rdata := some 0#32 }

/-- 42_driver.md R176, R177: a write of a read-only register or of a reserved index is ignored. -/
def Obligations.BenignWritesIgnored : Prop :=
  EncodedAs 0x4100000000 0x7F00000000 (fun i => ∃ d, i = .wrStatus d) ∧
  EncodedAs 0x4400000000 0x7F00000000 (fun i => ∃ d, i = .wrLenLo d) ∧
  EncodedAs 0x4500000000 0x7F00000000 (fun i => ∃ d, i = .wrLenHi d) ∧
  EncodedAs 0x4800000000 0x7C00000000 (fun i => ∃ w d, i = .wrDigest w d) ∧
  EncodedAs 0x5000000000 0x7800000000 (fun i => ∃ k d, i = .wrHex k d) ∧
  EncodedAs 0x4600000000 0x7E00000000 (fun i => ∃ x d, i = .wrRsvd6to7 x d) ∧
  EncodedAs 0x4C00000000 0x7C00000000 (fun i => ∃ x d, i = .wrRsvd12to15 x d) ∧
  EncodedAs 0x5800000000 0x7800000000 (fun i => ∃ x d, i = .wrRsvd24to31 x d) ∧
  EncodedAs 0x6000000000 0x6000000000 (fun i => ∃ x d, i = .wrRsvd32to63 x d) ∧
  ∀ (w : BitVec 2) (k : BitVec 3) (x : Widx) (d : Word) (s : State),
    exec (.wrStatus d) s = .next { s with rdata := none } ∧ exec (.wrLenLo d) s = .next { s with rdata := none } ∧
    exec (.wrLenHi d) s = .next { s with rdata := none } ∧ exec (.wrDigest w d) s = .next { s with rdata := none } ∧
    exec (.wrHex k d) s = .next { s with rdata := none } ∧ exec (.wrRsvd6to7 x d) s = .next { s with rdata := none } ∧
    exec (.wrRsvd12to15 x d) s = .next { s with rdata := none } ∧
    exec (.wrRsvd24to31 x d) s = .next { s with rdata := none } ∧
    exec (.wrRsvd32to63 x d) s = .next { s with rdata := none }

/-- Reads have no side effects: every read leaves the whole state of the block unchanged and may be repeated, with any
accesses that leave the state alone between (20_memory.md R59). -/
def Obligations.ReadsHaveNoSideEffects : Prop :=
  ∀ (i : Instr) (s : State), isRead i = true →
    ∃ v, exec i s = .next { s with rdata := some v } ∧
      ∀ r, exec i { s with rdata := r } = .next { s with rdata := some v }

/-! ### The round engine -/

/-- 41_compression.md R121: UNPACK forms sixteen little-endian words of `BUF` and copies `ST` into `WK`; nothing else
changes. -/
def Obligations.UnpackLoadsWords : Prop :=
  ControlEncodedAs 0x00 0xFF (fun i => i = .unpack) ∧
  ∀ s : State, ∃ m : Vector Word 16, exec .unpack s = .next { s with mw := m, wk := s.st } ∧
    ∀ j : Fin 16, (m[j]).toNat =
      (s.buf.read ⟨4 * j.val, by omega⟩).toNat + 2 ^ 8 * (s.buf.read ⟨4 * j.val + 1, by omega⟩).toNat +
        2 ^ 16 * (s.buf.read ⟨4 * j.val + 2, by omega⟩).toNat + 2 ^ 24 * (s.buf.read ⟨4 * j.val + 3, by omega⟩).toNat

/-- 41_compression.md R137: ACCUM adds `WK` into `ST`, four independent sums modulo `2^32`; nothing else changes. -/
def Obligations.AccumAddsLanes : Prop :=
  ControlEncodedAs 0x01 0xFF (fun i => i = .accum) ∧
  ∀ s : State, ∃ q : Quad, exec .accum s = .next { s with st := q } ∧
    q.a.toNat = (s.st.a.toNat + s.wk.a.toNat) % 2 ^ 32 ∧ q.b.toNat = (s.st.b.toNat + s.wk.b.toNat) % 2 ^ 32 ∧
    q.c.toNat = (s.st.c.toNat + s.wk.c.toNat) % 2 ^ 32 ∧ q.d.toNat = (s.st.d.toNat + s.wk.d.toNat) % 2 ^ 32

/-- 41_compression.md R133 to R136: the four forms of STEP. With the roles of R130 the accumulator takes the register
`x` plus the rotated sum, and nothing else changes. The roles and the rotation amounts are what the spec marks as
general knowledge (R128, R130). -/
def Obligations.StepWritesAccumulator : Prop :=
  ControlEncodedAs 0x80 0xF0 (fun i => ∃ n, i = .stepF n) ∧ ControlEncodedAs 0x90 0xF0 (fun i => ∃ n, i = .stepG n) ∧
  ControlEncodedAs 0xA0 0xF0 (fun i => ∃ n, i = .stepH n) ∧ ControlEncodedAs 0xB0 0xF0 (fun i => ∃ n, i = .stepI n) ∧
  (∀ n : BitVec 6, decodeRCW (0b10#2 ++ n) =
    if n.toNat < 16 then .stepF n else if n.toNat < 32 then .stepG n else if n.toNat < 48 then .stepH n else .stepI n) ∧
  ∀ (i : Instr) (n : BitVec 6) (f : Word → Word → Word → Word) (g : Nat) (s : State),
    (i = .stepF n ∧ n.toNat < 16 ∧ g = n.toNat ∧ f = fun x y z => (x &&& y) ||| (~~~x &&& z)) ∨
    (i = .stepG n ∧ 16 ≤ n.toNat ∧ n.toNat < 32 ∧ g = (5 * n.toNat + 1) % 16 ∧
      f = fun x y z => (x &&& z) ||| (y &&& ~~~z)) ∨
    (i = .stepH n ∧ 32 ≤ n.toNat ∧ n.toNat < 48 ∧ g = (3 * n.toNat + 5) % 16 ∧ f = fun x y z => x ^^^ y ^^^ z) ∨
    (i = .stepI n ∧ 48 ≤ n.toNat ∧ g = (7 * n.toNat) % 16 ∧ f = fun x y z => y ^^^ (x ||| ~~~z)) →
    let k := addConst n + s.mw.toList.getD g 0#32
    let new := fun acc x y z => x + (acc + f x y z + k).rotateLeft (rotAmount n)
    let wk := s.wk
    let after : Quad :=
      if n.toNat % 4 = 0 then ⟨new wk.a wk.b wk.c wk.d, wk.b, wk.c, wk.d⟩
      else if n.toNat % 4 = 1 then ⟨wk.a, wk.b, wk.c, new wk.d wk.a wk.b wk.c⟩
      else if n.toNat % 4 = 2 then ⟨wk.a, wk.b, new wk.c wk.d wk.a wk.b, wk.d⟩
      else ⟨wk.a, new wk.b wk.c wk.d wk.a, wk.c, wk.d⟩
    exec i s = .next { s with wk := after }

/-- 30_encoding.md R82: the reserved control words are refused, and the sequencer issues none of them. -/
def Obligations.ReservedControlRefused : Prop :=
  (∀ (w : RcwWord) (s : State),
    exec (.rcwRsvd02to03 w) s = .refused .rcwReserved ∧ exec (.rcwRsvd04to07 w) s = .refused .rcwReserved ∧
    exec (.rcwRsvd08to0F w) s = .refused .rcwReserved ∧ exec (.rcwRsvd10to1F w) s = .refused .rcwReserved ∧
    exec (.rcwRsvd20to3F w) s = .refused .rcwReserved ∧ exec (.rcwRsvd40to7F w) s = .refused .rcwReserved ∧
    exec (.rcwRsvdC0toFF w) s = .refused .rcwReserved) ∧
  (∀ w : RcwWord, isReservedControl (decodeRCW w) = true ↔
    w.toNat ≠ 0x00 ∧ w.toNat ≠ 0x01 ∧ ¬(0x80 ≤ w.toNat ∧ w.toNat ≤ 0xBF)) ∧
  (∀ e w, controlWord e = some w → isReservedControl (decodeRCW w) = false)

/-- 41_compression.md R123 to R126: the four nonlinear functions bit by bit, with the rules' examples. The spec marks
the examples as derived from the same rules. -/
def Obligations.NonlinearFunctionsBitwise : Prop :=
  (∀ (x y z : Word) (k : Nat), k < 32 →
    (funF x y z).getLsbD k = (if x.getLsbD k then y.getLsbD k else z.getLsbD k) ∧
    (funG x y z).getLsbD k = (if z.getLsbD k then x.getLsbD k else y.getLsbD k) ∧
    (funH x y z).getLsbD k = (x.getLsbD k ^^ y.getLsbD k ^^ z.getLsbD k) ∧
    (funI x y z).getLsbD k = (y.getLsbD k ^^ (x.getLsbD k || !z.getLsbD k))) ∧
  funF 0xefcdab89#32 0x98badcfe#32 0x10325476#32 = 0x98badcfe#32 ∧
  funG 0x72aff2e0#32 0xe396856b#32 0xa1051895#32 = 0x629795ea#32 ∧
  funH 0x726342d3#32 0xa62884aa#32 0x9f47e4f8#32 = 0x4b0c2281#32 ∧
  funI 0x7beb9700#32 0x8fae6399#32 0x99d9679d#32 = 0xf041fcfb#32

/-- 41_compression.md R127, R128: the message schedule, a permutation in each round, and the rotation amounts. The
spec marks the bijection as derived and the amounts of rounds 2 to 4 as general knowledge. -/
def Obligations.ScheduleAndRotations : Prop :=
  (∀ n : BitVec 6, (msgIndex n).val =
    if n.toNat < 16 then n.toNat else if n.toNat < 32 then (5 * n.toNat + 1) % 16
    else if n.toNat < 48 then (3 * n.toNat + 5) % 16 else 7 * n.toNat % 16) ∧
  (∀ (q : BitVec 2) (j : Fin 16), ∃! r : BitVec 4, msgIndex (q ++ r) = j) ∧
  (∀ n : BitVec 6, rotAmount n = ([7, 12, 17, 22, 5, 9, 14, 20, 4, 11, 16, 23, 6, 10, 15, 21].getD
    (4 * (n.toNat / 16) + n.toNat % 4) 0) ∧ 4 ≤ rotAmount n ∧ rotAmount n ≤ 23)

/-- 41_compression.md R131: the rotation moves the bit at position `k` to position `(k + s) mod 32`, and is the number
`((v << s) | (v >> (32 - s))) mod 2^32`. -/
def Obligations.RotationMovesBits : Prop :=
  ∀ (v : Word) (s k : Nat), 0 < s → s < 32 → k < 32 →
    (rotl32 v s).getLsbD ((k + s) % 32) = v.getLsbD k ∧
    (rotl32 v s).toNat = ((v.toNat <<< s) ||| (v.toNat >>> (32 - s))) % 2 ^ 32

/-- 41_compression.md R129: every additive constant is `floor(2^32 * |sin(i + 1)|)`, the argument in radians. The spec
marks the radians as general knowledge. -/
def Obligations.ConstantsAreSines : Prop :=
  ∀ i : BitVec 6, ((addConst i).toNat : ℤ) = ⌊(2 : ℝ) ^ 32 * |Real.sin ((i.toNat : ℝ) + 1)|⌋

/-- 41_compression.md R138: a compression is exactly the 66 micro-operations UNPACK, STEP(0), ..., STEP(63), ACCUM (the
control words 0x00, 0x80 to 0xBF, 0x01). Run one step of the machine at a time, they leave what `COMPRESS()` leaves: `ST` is
`compress(BUF, ST)`, and the buffer, the driver and the inputs are as before. -/
def Obligations.CompressionIsItsMicroOps : Prop :=
  ∀ s : State, (∀ rest, s.inputs ≠ .reset :: rest) →
    Host.Core.run core 66 { s with eseq := .unpack } = .next (compress s) ∧
    (∀ n, n < 66 → ∃ t : State, Host.Core.run core n { s with eseq := .unpack } = .next t ∧
      controlWord t.eseq = some (if n = 0 then 0x00#8 else if n < 65 then BitVec.ofNat 8 (0x80 + (n - 1)) else 0x01#8)) ∧
    (compress s).st = compressBlock s.buf.bytes s.st ∧ (compress s).buf = s.buf ∧ (compress s).cnt = s.cnt ∧
    (compress s).phase = s.phase ∧ (compress s).errLen = s.errLen ∧ (compress s).errSeq = s.errSeq ∧
    (compress s).errCmd = s.errCmd ∧ (compress s).eseq = .idle ∧ (compress s).inputs = s.inputs ∧
    (compress s).rdata = s.rdata

/-- 41_compression.md R142: the fixed-role datapath and the rotating formulation hold the same four values in the same
registers after every fourth step, so they compress alike. The spec marks this as derived from R130 and R132. -/
def Obligations.RotatingFormAgrees : Prop :=
  ∀ (mw : Vector Word 16) (st : Quad),
    (∀ n, n ≤ 16 → rotatingRounds mw (4 * n) st =
      (List.range (4 * n)).foldl (fun wk i => stepPure mw (BitVec.ofNat 6 i) wk) st) ∧
    (∀ block : List Byte, compressBlock block st = st.add (rotatingRounds (blockWords block) 64 st))

/-- `ST` changes only at INIT and at ACCUM, on its own or at the end of a compression that a data write or FINAL triggers;
STEP changes only `WK`, UNPACK only `MW` and `WK` (41_compression.md R139, 10_state.md R21). -/
def Obligations.WritersOfChainingState : Prop :=
  (∀ (i : Instr) (s t : State), exec i s = .next t → t.st ≠ s.st →
    isInit i = true ∨ i = .accum ∨
      ((isData i = true ∨ isFinal i = true) ∧ s.phase = .absorb ∧ s.compressions < t.compressions)) ∧
  (∀ (n : BitVec 6) (s t : State),
    exec (.stepF n) s = .next t ∨ exec (.stepG n) s = .next t ∨ exec (.stepH n) s = .next t ∨
      exec (.stepI n) s = .next t → t = { s with wk := t.wk }) ∧
  (∀ s t : State, exec .unpack s = .next t → t = { s with mw := t.mw, wk := t.wk })

/-! ### Padding -/

/-- 40_padding.md R101, R102: the padded tail is the least whole number of blocks with room for the tail, `0x80` and
the length, and its content byte by byte. The count of zero bytes in the last line is what the spec marks as derived
from the rest. -/
def Obligations.PaddedTailContent : Prop :=
  ∀ (tail : List Byte) (bits : BitVec 64), tail.length < 64 →
    let t := tail.length
    let n := (paddedTail tail bits).length
    (n = if t ≤ 55 then 64 else 128) ∧
    (n % 64 = 0 ∧ t + 1 + 8 ≤ n ∧ ∀ m, m % 64 = 0 → t + 1 + 8 ≤ m → n ≤ m) ∧
    (∀ k, k < t → (paddedTail tail bits)[k]? = tail[k]?) ∧ (paddedTail tail bits)[t]? = some 0x80#8 ∧
    (∀ k, t < k → k < n - 8 → (paddedTail tail bits)[k]? = some 0x00#8) ∧
    (∀ j, j < 8 → (paddedTail tail bits)[n - 8 + j]? = some (bits.extractLsb' (8 * j) 8)) ∧
    n - 9 - t = (119 - t) % 64

/-- 40_padding.md R103, R104: the length field becomes `MW[14] = L[31:0]` and `MW[15] = L[63:32]` of the last block,
and an empty tail still gives one whole block. The spec marks both as derived from R102 and R121. -/
def Obligations.LengthFieldWords : Prop :=
  (∀ (tail : List Byte) (bits : BitVec 64), tail.length < 64 →
    let p := paddedTail tail bits
    let m := blockWords (p.drop (p.length - 64))
    m[14] = bits.extractLsb' 0 32 ∧ m[15] = bits.extractLsb' 32 32) ∧
  (∀ bits : BitVec 64, paddedTail [] bits = 0x80#8 :: (List.replicate 55 0x00#8 ++ le64 bits))

/-! ### Whole-machine rules -/

/-- 10_state.md R28: each flag is set only by the condition its rule names, and cleared only by INIT and by reset. -/
def Obligations.FlagsAreSticky : Prop :=
  (∀ (i : Instr) (s t : State), exec i s = .next t → isInit i = false →
    (t.errLen = true ↔ s.errLen = true ∨
      (isData i = true ∧ s.phase = .absorb ∧ maxLen < s.cnt.toNat + (messageBytes i).length)) ∧
    (t.errSeq = true ↔ s.errSeq = true ∨ ((isData i = true ∨ isFinal i = true) ∧ s.phase ≠ .absorb)) ∧
    (t.errCmd = true ↔ s.errCmd = true ∨ isReservedCmd i = true)) ∧
  (∀ (i : Instr) (s t : State), exec i s = .next t → isInit i = true →
    t.errLen = false ∧ t.errSeq = false ∧ t.errCmd = false) ∧
  (∀ (s t : State) (rest : List Input), s.inputs = .reset :: rest → step s = .next t →
    t.errLen = false ∧ t.errSeq = false ∧ t.errCmd = false)

/-- One access raises at most one error (60_exceptions.md R225). -/
def Obligations.AtMostOneErrorPerAccess : Prop :=
  ∀ (i : Instr) (s t : State), exec i s = .next t →
    ∀ e e' : ErrorKind, errorFlag e s = false → errorFlag e t = true → errorFlag e' s = false →
      errorFlag e' t = true → e = e'

/-- 10_state.md R27: the codes of the phases, and every transition between them. Only a length overflow reaches
FAILED. -/
def Obligations.PhaseTransitions : Prop :=
  (phaseCode .idle = 0#2 ∧ phaseCode .absorb = 1#2 ∧ phaseCode .done = 2#2 ∧ phaseCode .failed = 3#2) ∧
  (∀ (i : Instr) (s t : State), exec i s = .next t →
    (isInit i = true → t.phase = .absorb) ∧ (isFinal i = true → s.phase = .absorb → t.phase = .done) ∧
    (isData i = true → s.phase = .absorb → maxLen < s.cnt.toNat + (messageBytes i).length → t.phase = .failed) ∧
    (t.phase ≠ s.phase → isInit i = true ∨ (isFinal i = true ∧ s.phase = .absorb ∧ t.phase = .done) ∨
      (isData i = true ∧ s.phase = .absorb ∧ maxLen < s.cnt.toNat + (messageBytes i).length ∧ t.phase = .failed))) ∧
  (∀ (s t : State) (rest : List Input), s.inputs = .reset :: rest → step s = .next t → t.phase = .idle)

/-- `CNT` counts the bytes absorbed since INIT and never wraps: INIT sets it to 0, an accepted data write adds exactly
the number of its bytes, and every other instruction leaves it (10_state.md R26, 42_driver.md R166, R167). -/
def Obligations.CountNeverWraps : Prop :=
  ∀ (i : Instr) (s t : State), exec i s = .next t →
    s.cnt.toNat ≤ maxLen ∧ t.cnt.toNat ≤ maxLen ∧
    (isInit i = true → t.cnt = 0#61) ∧
    (isData i = true → s.phase = .absorb → s.cnt.toNat + (messageBytes i).length ≤ maxLen →
      t.cnt.toNat = s.cnt.toNat + (messageBytes i).length) ∧
    (isInit i = false →
      ¬(isData i = true ∧ s.phase = .absorb ∧ s.cnt.toNat + (messageBytes i).length ≤ maxLen) → t.cnt = s.cnt)

/-- Every access completes, with the sequencer idle again; a data write triggers at most one compression, and exactly
one when it completes a block, FINAL in ABSORB one or two, every other access none (70_reset_and_hazards.md R257,
40_padding.md R108, 42_driver.md R170). The spec marks R257 and R108 as derived. -/
def Obligations.EveryAccessCompletes : Prop :=
  ∀ (i : Instr) (s : State), isAccess i = true → s.eseq = .idle →
    ∃ t, exec i s = .next t ∧ t.eseq = .idle ∧ t.inputs = s.inputs ∧
      t.compressions ≤ s.compressions + 2 ∧
      (isData i = true → t.compressions = s.compressions + (t.cnt.toNat / 64 - s.cnt.toNat / 64) ∧
        t.compressions ≤ s.compressions + 1) ∧
      (isFinal i = true → s.phase = .absorb →
        t.compressions = s.compressions + if s.cnt.toNat % 64 ≤ 55 then 1 else 2) ∧
      (isData i = false → isFinal i = false → t.compressions = s.compressions)

/-! ### Invariants -/

/-- Every step keeps the canonical form of `BUF` (the model's form, 20_memory.md R53). -/
def Obligations.StepKeepsBufferCanonical : Prop :=
  ∀ s t : State, s.buf.wf = true → step s = .next t → t.buf.wf = true

/-- Every step keeps ERR_LEN set exactly in FAILED and ERR_SEQ clear in ABSORB (10_state.md R27, R28). -/
def Obligations.StepKeepsPhaseConsistent : Prop :=
  ∀ s t : State, PhaseConsistent s → step s = .next t → PhaseConsistent t

/-- 10_state.md R42 (which the spec marks as derived), with the message `m` absorbed since INIT named. As an invariant
every step keeps: while a computation is open, `BUF` holds the tail of `m` and `ST` the chaining value of its complete
blocks; in DONE, `ST` is its digest; the message after a step is `messageAfter`. And access by access, from any state
that holds `m`: INIT holds the empty message, an accepted data write holds `m` with its bytes appended, FINAL leaves
the digest of `m`, every other access still holds `m`. -/
def Obligations.StepKeepsSound : Prop :=
  (∀ (m : List Byte) (s t : State), Sound m s → step s = .next t → Sound (messageAfter m s) t) ∧
  (∀ (m : List Byte) (i : Instr) (s t : State), s.buf.wf = true → HoldsMessage s m → isAccess i = true →
    exec i s = .next t →
    (isInit i = true → t.phase = .absorb ∧ HoldsMessage t []) ∧
    (isData i = true → s.phase = .absorb → m.length + (messageBytes i).length ≤ maxLen →
      t.phase = .absorb ∧ HoldsMessage t (m ++ messageBytes i)) ∧
    (isFinal i = true → s.phase = .absorb → t.phase = .done ∧ t.cnt.toNat = m.length ∧ t.st = md5state m) ∧
    (isInit i = false → (isFinal i = true → s.phase ≠ .absorb) → accepts m s i = false → HoldsMessage t m))

/-- The reset state meets the invariants with no byte absorbed, whatever a host has waiting at the inputs. -/
def Obligations.ResetIsSound : Prop :=
  ∀ w : List Input, w.all isHostInput = true → Sound [] { State.reset with inputs := w }

/-! ### Headlines -/

/-- 42_driver.md R178, R179: whatever state the block is in between accesses, INIT, then data writes in any mix and
grouping with any reads, NOPs and benign accesses among them, then FINAL, end in DONE with `CNT = |m|`, no flag set
and `ST = md5state(m)` for the concatenation `m` of the bytes written; the blocks compressed are those of
40_padding.md R108. The spec marks R178 and R179 as derived. -/
def Obligations.DigestIsChunkingInvariant : Prop :=
  ∀ (s : State) (v0 v1 : HtWord) (ws : List HtWord) (rest : List Input),
    s.buf.wf = true → s.eseq = .idle → isInit (decodeHT v0) = true → isFinal (decodeHT v1) = true →
    (∀ w ∈ ws, mayStandInMessage (decodeHT w) = true) → (messageOf ws).length ≤ maxLen →
    s.inputs = .access v0 :: (ws.map Input.access ++ .access v1 :: rest) →
    ∃ t : State, Host.Core.run core (ws.length + 2) s = .next t ∧ t.phase = .done ∧
      t.cnt.toNat = (messageOf ws).length ∧ t.errLen = false ∧ t.errSeq = false ∧ t.errCmd = false ∧
      t.st = md5state (messageOf ws) ∧ t.inputs = rest ∧
      t.compressions = s.compressions + (messageOf ws).length / 64 +
        (if (messageOf ws).length % 64 ≤ 55 then 1 else 2)

/-- The pseudo-instructions of 30_encoding.md R84: PUTS hands over exactly its bytes, in order, and HASH followed by
GETDIG and GETHEX is a sequence the digest statement speaks of. The spec marks the first as derived from R56. -/
def Obligations.PutsHandsOverBytes : Prop :=
  ∀ bs : List Byte, messageOf (expand (.putS bs)) = bs ∧
    (∀ w ∈ expand (.putS bs), mayStandInMessage (decodeHT w) = true) ∧
    ∃ v0 v1, expand (.hash bs) = v0 :: (expand (.putS bs) ++ [v1]) ∧ isInit (decodeHT v0) = true ∧
      isFinal (decodeHT v1) = true ∧
      ∀ w ∈ expand .getDig ++ expand .getHex, isRead (decodeHT w) = true

/-- 10_state.md R41: `WK`, `MW` and the bytes of `BUF` at and above `CNT mod 64` influence no later observable value.
Two states between accesses that differ only there answer every sequence of host inputs alike, for any number of
steps. The spec marks R41 as derived. -/
def Obligations.HiddenStateUnobservable : Prop :=
  ∀ (n : Nat) (s t : State), s.buf.wf = true → t.buf.wf = true → Quiet s → SameToHost s t →
    ∃ s' t', Host.Core.run core n s = .next s' ∧ Host.Core.run core n t = .next t' ∧ SameToHost s' t'
end

