-- ==== Sys2Proof/Laws/Decode.lean ====
section
/-! SUPPORT. The fields of a host transaction, taken apart and put together. -/

namespace Sys2Proof

/-- Every bit of a transaction, by the field it lies in. -/
theorem htWord_getLsbD (we : BitVec 1) (x : Widx) (d : Word) (k : Nat) :
    (htWord we x d).getLsbD k =
      if k < 32 then d.getLsbD k else if k < 38 then x.getLsbD (k - 32) else we.getLsbD (k - 38) := by
  have h : k - 32 < 6 ↔ k < 38 ∨ k < 32 := by omega
  have h' : k - 32 - 6 = k - 38 := by omega
  unfold htWord
  rw [BitVec.getLsbD_append, BitVec.getLsbD_append, h']
  by_cases h1 : k < 32 <;> by_cases h2 : k < 38 <;> simp [h, h1, h2]

@[simp] theorem htWord_wdata (we : BitVec 1) (x : Widx) (d : Word) : (htWord we x d).extractLsb' 0 32 = d := by
  refine BitVec.eq_of_getLsbD_eq fun k hk => ?_
  rw [BitVec.getLsbD_extractLsb', htWord_getLsbD]
  simp [hk]

@[simp] theorem htWord_widx (we : BitVec 1) (x : Widx) (d : Word) : (htWord we x d).extractLsb' 32 6 = x := by
  refine BitVec.eq_of_getLsbD_eq fun k hk => ?_
  rw [BitVec.getLsbD_extractLsb', htWord_getLsbD]
  simp [hk]
  omega

@[simp] theorem htWord_we (we : BitVec 1) (x : Widx) (d : Word) : (htWord we x d)[38] = we[0] := by
  rw [← BitVec.getLsbD_eq_getElem, htWord_getLsbD]
  simp

/-- A transaction is decoded by its direction, its word index and its data. -/
theorem decodeHT_htWord (we : BitVec 1) (x : Widx) (d : Word) :
    decodeHT (htWord we x d) = if we[0] then decodeWrite x d else decodeRead x d := by
  simp [decodeHT]

/-- Every transaction is put together from its three fields. -/
theorem htWord_fields (v : HtWord) :
    htWord (v.extractLsb' 38 1) (v.extractLsb' 32 6) (v.extractLsb' 0 32) = v := by
  refine BitVec.eq_of_getLsbD_eq fun k hk => ?_
  simp only [htWord_getLsbD, BitVec.getLsbD_extractLsb', Nat.zero_add]
  split
  · simp_all
  · split
    · rw [show 32 + (k - 32) = k by omega]; simp; omega
    · rw [show 38 + (k - 38) = k by omega]; simp; omega

end Sys2Proof
end

