-- ==== Sys2Proof/Laws/Memory.lean ====
section
/-! SUPPORT. What reading and writing the block buffer does: read after write, the canonical form, and the padding engine's
two bulk writes. -/

namespace Sys2Proof.Machine

theorem cellsFrom_mono {lo lo' : Nat} {m : List Host.Cell} (h : lo' ≤ lo) (hm : cellsFrom lo m = true) :
    cellsFrom lo' m = true := by
  cases m with
  | nil => rfl
  | cons c rest =>
    simp only [cellsFrom, Bool.and_eq_true, decide_eq_true_eq] at hm ⊢
    exact ⟨⟨⟨Nat.le_trans h hm.1.1.1, hm.1.1.2⟩, hm.1.2⟩, hm.2⟩

theorem cellRead_below {lo k : Nat} {m : List Host.Cell} (hm : cellsFrom lo m = true) (hk : k < lo) :
    cellRead m k = Memory.unlisted := by
  induction m generalizing lo with
  | nil => rfl
  | cons c rest ih =>
    simp only [cellsFrom, Bool.and_eq_true, decide_eq_true_eq] at hm
    have hne : c.1 ≠ k := by omega
    simp only [cellRead, hne, if_false]
    exact ih hm.2 (by omega)

theorem cellRead_write_same {lo k : Nat} {m : List Host.Cell} (b : Byte) (hm : cellsFrom lo m = true) :
    cellRead (cellWrite m k b) k = b := by
  induction m generalizing lo with
  | nil => by_cases hb : b = Memory.unlisted <;> simp [cellWrite, cellRead, hb]
  | cons c rest ih =>
    simp only [cellsFrom, Bool.and_eq_true, decide_eq_true_eq] at hm
    by_cases hlt : c.1 < k
    · have hne : c.1 ≠ k := by omega
      simp only [cellWrite, hlt, if_true, cellRead, hne, if_false]
      exact ih hm.2
    · by_cases hb : b = Memory.unlisted
      · by_cases heq : c.1 = k
        · simp only [cellWrite, if_neg hlt, if_pos heq, if_pos hb]
          rw [hb]
          exact cellRead_below hm.2 (by omega : k < c.1 + 1)
        · simp only [cellWrite, if_neg hlt, if_neg heq, if_pos hb, cellRead]
          rw [hb]
          exact cellRead_below hm.2 (by omega : k < c.1 + 1)
      · simp [cellWrite, hlt, hb, cellRead]

theorem cellRead_write_other {k j : Nat} (m : List Host.Cell) (b : Byte) (hj : j ≠ k) :
    cellRead (cellWrite m k b) j = cellRead m j := by
  induction m with
  | nil => by_cases hb : b = Memory.unlisted <;> simp [cellWrite, cellRead, hb, Ne.symm hj]
  | cons c rest ih =>
    by_cases hlt : c.1 < k
    · simp only [cellWrite, if_pos hlt, cellRead, ih]
    · by_cases heq : c.1 = k <;> by_cases hb : b = Memory.unlisted <;>
        simp [cellWrite, hlt, heq, hb, cellRead, Ne.symm hj]

theorem cellsFrom_write {lo k : Nat} {m : List Host.Cell} (b : Byte) (hk : k < 64) (hlo : lo ≤ k)
    (hm : cellsFrom lo m = true) : cellsFrom lo (cellWrite m k b) = true := by
  induction m generalizing lo with
  | nil => by_cases hb : b = Memory.unlisted <;> simp [cellWrite, cellsFrom, hb, hk, hlo]
  | cons c rest ih =>
    simp only [cellsFrom, Bool.and_eq_true, decide_eq_true_eq] at hm
    obtain ⟨⟨⟨h1, h2⟩, h3⟩, h4⟩ := hm
    by_cases hlt : c.1 < k
    · simp only [cellWrite, hlt, if_true, cellsFrom, Bool.and_eq_true, decide_eq_true_eq]
      exact ⟨⟨⟨h1, h2⟩, h3⟩, ih (by omega) h4⟩
    · by_cases heq : c.1 = k
      · subst heq
        by_cases hb : b = Memory.unlisted
        · simp only [cellWrite, hlt, if_false, if_true, hb]
          exact cellsFrom_mono (by omega) h4
        · simp only [cellWrite, hlt, if_false, if_true, hb, cellsFrom, Bool.and_eq_true, decide_eq_true_eq]
          exact ⟨⟨⟨h1, h2⟩, by simpa using hb⟩, h4⟩
      · by_cases hb : b = Memory.unlisted
        · simp only [cellWrite, hlt, if_false, heq, hb, if_true, cellsFrom, Bool.and_eq_true, decide_eq_true_eq]
          exact ⟨⟨⟨h1, h2⟩, h3⟩, h4⟩
        · simp only [cellWrite, hlt, if_false, heq, hb, cellsFrom, Bool.and_eq_true, decide_eq_true_eq]
          exact ⟨⟨⟨hlo, hk⟩, by simpa using hb⟩, ⟨⟨by omega, h2⟩, h3⟩, h4⟩

/-! ### `Memory` -/

/-- Reading the byte just written gives it. -/
theorem Memory.read_write_same {m : Memory} (k : BufIdx) (b : Byte) (hm : m.wf = true) :
    (m.write k b).read k = b := cellRead_write_same b hm

/-- A write leaves every other byte alone. -/
theorem Memory.read_write_other (m : Memory) {k j : BufIdx} (b : Byte) (hj : j ≠ k) :
    (m.write k b).read j = m.read j := cellRead_write_other m b (fun h => hj (Fin.ext h))

theorem Memory.read_write {m : Memory} (k j : BufIdx) (b : Byte) (hm : m.wf = true) :
    (m.write k b).read j = if j = k then b else m.read j := by
  by_cases h : j = k
  · subst h; simp [Memory.read_write_same j b hm]
  · simp [h, Memory.read_write_other m b h]

/-- A write keeps the canonical form. -/
theorem Memory.wf_write {m : Memory} (k : BufIdx) (b : Byte) (hm : m.wf = true) : (m.write k b).wf = true :=
  cellsFrom_write b k.isLt (Nat.zero_le _) hm

/-- The form is canonical: buffers that read alike are equal data. -/
theorem cells_ext {lo : Nat} {m m' : List Host.Cell} (hm : cellsFrom lo m = true) (hm' : cellsFrom lo m' = true)
    (h : ∀ k, cellRead m k = cellRead m' k) : m = m' := by
  induction m generalizing lo m' with
  | nil =>
    cases m' with
    | nil => rfl
    | cons c rest =>
      simp only [cellsFrom, Bool.and_eq_true, bne_iff_ne] at hm'
      exact absurd (by simpa [cellRead] using (h c.1).symm) hm'.1.2
  | cons c rest ih =>
    simp only [cellsFrom, Bool.and_eq_true, decide_eq_true_eq, bne_iff_ne] at hm
    obtain ⟨⟨⟨h1, h2⟩, h3⟩, h4⟩ := hm
    cases m' with
    | nil => exact absurd (by simpa [cellRead] using h c.1) h3
    | cons d rest' =>
      simp only [cellsFrom, Bool.and_eq_true, decide_eq_true_eq, bne_iff_ne] at hm'
      obtain ⟨⟨⟨g1, g2⟩, g3⟩, g4⟩ := hm'
      have hcd : c.1 = d.1 := by
        rcases Nat.lt_trichotomy c.1 d.1 with hlt | heq | hgt
        · have := h c.1
          rw [show cellRead (d :: rest') c.1 = cellRead rest' c.1 by simp [cellRead]; omega,
            cellRead_below g4 (by omega)] at this
          exact absurd (by simpa [cellRead] using this) h3
        · exact heq
        · have := (h d.1).symm
          rw [show cellRead (c :: rest) d.1 = cellRead rest d.1 by simp [cellRead]; omega,
            cellRead_below h4 (by omega)] at this
          exact absurd (by simpa [cellRead] using this) g3
      have hb : c.2 = d.2 := by simpa [cellRead, hcd] using h c.1
      have hrest : rest = rest' := by
        refine ih h4 (hcd ▸ g4) fun k => ?_
        by_cases hk : c.1 = k
        · rw [cellRead_below h4 (by omega), cellRead_below g4 (by omega)]
        · simpa [cellRead, hk, hcd ▸ hk] using h k
      rw [show c = d from Prod.ext hcd hb, hrest]

/-- Reading past index 63 of a canonical list finds nothing. -/
theorem cellRead_above {lo k : Nat} {m : List Host.Cell} (hm : cellsFrom lo m = true) (hk : 64 ≤ k) :
    cellRead m k = Memory.unlisted := by
  induction m generalizing lo with
  | nil => rfl
  | cons c rest ih =>
    simp only [cellsFrom, Bool.and_eq_true, decide_eq_true_eq] at hm
    have hne : c.1 ≠ k := by omega
    simp only [cellRead, hne, if_false]
    exact ih hm.2

/-- Two canonical buffers that read alike at every index are equal. -/
theorem Memory.ext_read {m m' : Memory} (hm : m.wf = true) (hm' : m'.wf = true)
    (h : ∀ k : BufIdx, m.read k = m'.read k) : m = m' := by
  refine cells_ext hm hm' fun k => ?_
  by_cases hk : k < 64
  · exact h ⟨k, hk⟩
  · rw [cellRead_above hm (by omega), cellRead_above hm' (by omega)]

/-- The reset buffer is canonical. -/
theorem reset_buf_wf : State.reset.buf.wf = true := rfl

/-! ### Bulk writes -/

/-- A fold of writes at the indices of a list, each with a byte of its own, keeps the canonical form. -/
theorem wf_foldl_write {α : Type} (l : List α) (p : α → Bool) (k : α → BufIdx) (b : α → Byte) {m : Memory}
    (hm : m.wf = true) : (l.foldl (fun m x => if p x then m.write (k x) (b x) else m) m).wf = true := by
  induction l generalizing m with
  | nil => exact hm
  | cons x l ih =>
    refine ih ?_
    by_cases hp : p x = true
    · simpa [hp] using Memory.wf_write (k x) (b x) hm
    · simpa [hp] using hm

/-- What a fold of writes leaves at index `j`: the byte written there if every write to `j` agrees on it, else the old. -/
theorem read_foldl_write {α : Type} (l : List α) (p : α → Bool) (k : α → BufIdx) (b : α → Byte) {m : Memory}
    (hm : m.wf = true) (j : BufIdx) (v : Byte) (hv : ∀ x ∈ l, p x = true → k x = j → b x = v) :
    (l.foldl (fun m x => if p x then m.write (k x) (b x) else m) m).read j =
      if ∃ x ∈ l, p x = true ∧ k x = j then v else m.read j := by
  induction l generalizing m with
  | nil => simp
  | cons x l ih =>
    have hm' : (if p x then m.write (k x) (b x) else m).wf = true := by
      by_cases hp : p x = true
      · simpa [hp] using Memory.wf_write (k x) (b x) hm
      · simpa [hp] using hm
    rw [List.foldl_cons, ih hm' fun y hy => hv y (List.mem_cons_of_mem _ hy)]
    by_cases hl : ∃ y ∈ l, p y = true ∧ k y = j
    · have hxl : ∃ y ∈ x :: l, p y = true ∧ k y = j := by
        obtain ⟨y, hy, h⟩ := hl
        exact ⟨y, List.mem_cons_of_mem _ hy, h⟩
      rw [if_pos hl, if_pos hxl]
    · rw [if_neg hl]
      by_cases hx : p x = true ∧ k x = j
      · have hxl : ∃ y ∈ x :: l, p y = true ∧ k y = j := ⟨x, List.mem_cons_self, hx⟩
        rw [if_pos hxl, if_pos hx.1, ← hx.2, Memory.read_write_same _ _ hm]
        exact hv x List.mem_cons_self hx.1 hx.2
      · have hxl : ¬∃ y ∈ x :: l, p y = true ∧ k y = j := by
          rintro ⟨y, hy, hpy, hky⟩
          rcases List.mem_cons.1 hy with h | h
          · exact hx (h ▸ ⟨hpy, hky⟩)
          · exact hl ⟨y, h, hpy, hky⟩
        rw [if_neg hxl]
        by_cases hp : p x = true
        · rw [if_pos hp, Memory.read_write_other]
          exact fun h => hx ⟨hp, h.symm⟩
        · rw [if_neg hp]

theorem Memory.wf_zeroFill {m : Memory} (lo hi : Nat) (hm : m.wf = true) : (m.zeroFill lo hi).wf = true := by
  simpa [Memory.zeroFill] using
    wf_foldl_write (List.finRange 64) (fun k => decide (lo ≤ k.val ∧ k.val ≤ hi)) id (fun _ => 0#8) hm

/-- `zeroFill lo hi` zeroes the indices from `lo` to `hi` and no other. -/
theorem Memory.read_zeroFill {m : Memory} (lo hi : Nat) (hm : m.wf = true) (j : BufIdx) :
    (m.zeroFill lo hi).read j = if lo ≤ j.val ∧ j.val ≤ hi then 0#8 else m.read j := by
  have := read_foldl_write (List.finRange 64) (fun k => decide (lo ≤ k.val ∧ k.val ≤ hi)) id (fun _ => 0#8) hm j 0#8
    (fun _ _ _ _ => rfl)
  simpa [Memory.zeroFill] using this

theorem Memory.wf_writeLength {m : Memory} (n : BitVec 64) (hm : m.wf = true) : (m.writeLength n).wf = true := by
  simpa [Memory.writeLength] using
    wf_foldl_write (List.finRange 8) (fun _ => true) (fun j => ⟨56 + j.val, by omega⟩)
      (fun j => n.extractLsb' (8 * j.val) 8) hm

/-- `writeLength` puts byte `j` of the length at index `56 + j` and changes nothing below. -/
theorem Memory.read_writeLength {m : Memory} (n : BitVec 64) (hm : m.wf = true) (j : BufIdx) :
    (m.writeLength n).read j = if 56 ≤ j.val then n.extractLsb' (8 * (j.val - 56)) 8 else m.read j := by
  have := read_foldl_write (List.finRange 8) (fun _ => true) (fun j => (⟨56 + j.val, by omega⟩ : BufIdx))
    (fun j => n.extractLsb' (8 * j.val) 8) hm j (n.extractLsb' (8 * (j.val - 56)) 8)
    (fun x _ _ hx => by rw [← hx]; simp)
  have hex : (∃ x : Fin 8, (⟨56 + x.val, by omega⟩ : BufIdx) = j) ↔ 56 ≤ j.val := by
    constructor
    · rintro ⟨x, rfl⟩; simp
    · intro h; exact ⟨⟨j.val - 56, by omega⟩, Fin.ext (by simp; omega)⟩
  simpa [Memory.writeLength, hex] using this

@[simp] theorem Memory.length_bytes (m : Memory) : m.bytes.length = 64 := by simp [Memory.bytes]

/-- Byte `k` of the buffer's list of bytes is `BUF[k]`. -/
theorem Memory.getD_bytes (m : Memory) (k : BufIdx) : m.bytes.getD k.val 0#8 = m.read k := by
  simp [Memory.bytes, List.getD]

/-- UNPACK's words of the buffer are the words of its list of bytes. -/
theorem Memory.word_eq_blockWords (m : Memory) :
    (Vector.ofFn fun j : Fin 16 => m.word j) = blockWords m.bytes := by
  refine congrArg Vector.ofFn (funext fun j => ?_)
  simp only [Memory.word, ← Memory.getD_bytes]

end Sys2Proof.Machine
end

