-- ==== Sys2Proof/Laws/State.lean ====
section
/-! SUPPORT. One lemma for each named update of the state and each of its fields, so that no proof unfolds an update. -/

namespace Sys2Proof.Machine

@[simp] theorem respond_st (v : Word) (s : State) :
    (respond v s).st = s.st := rfl
@[simp] theorem respond_wk (v : Word) (s : State) :
    (respond v s).wk = s.wk := rfl
@[simp] theorem respond_mw (v : Word) (s : State) :
    (respond v s).mw = s.mw := rfl
@[simp] theorem respond_buf (v : Word) (s : State) :
    (respond v s).buf = s.buf := rfl
@[simp] theorem respond_cnt (v : Word) (s : State) :
    (respond v s).cnt = s.cnt := rfl
@[simp] theorem respond_phase (v : Word) (s : State) :
    (respond v s).phase = s.phase := rfl
@[simp] theorem respond_errLen (v : Word) (s : State) :
    (respond v s).errLen = s.errLen := rfl
@[simp] theorem respond_errSeq (v : Word) (s : State) :
    (respond v s).errSeq = s.errSeq := rfl
@[simp] theorem respond_errCmd (v : Word) (s : State) :
    (respond v s).errCmd = s.errCmd := rfl
@[simp] theorem respond_eseq (v : Word) (s : State) :
    (respond v s).eseq = s.eseq := rfl
@[simp] theorem respond_inputs (v : Word) (s : State) :
    (respond v s).inputs = s.inputs := rfl
@[simp] theorem respond_rdata (v : Word) (s : State) :
    (respond v s).rdata = some v := rfl
@[simp] theorem respond_compressions (v : Word) (s : State) :
    (respond v s).compressions = s.compressions := rfl

@[simp] theorem noResponse_st (s : State) :
    (noResponse s).st = s.st := rfl
@[simp] theorem noResponse_wk (s : State) :
    (noResponse s).wk = s.wk := rfl
@[simp] theorem noResponse_mw (s : State) :
    (noResponse s).mw = s.mw := rfl
@[simp] theorem noResponse_buf (s : State) :
    (noResponse s).buf = s.buf := rfl
@[simp] theorem noResponse_cnt (s : State) :
    (noResponse s).cnt = s.cnt := rfl
@[simp] theorem noResponse_phase (s : State) :
    (noResponse s).phase = s.phase := rfl
@[simp] theorem noResponse_errLen (s : State) :
    (noResponse s).errLen = s.errLen := rfl
@[simp] theorem noResponse_errSeq (s : State) :
    (noResponse s).errSeq = s.errSeq := rfl
@[simp] theorem noResponse_errCmd (s : State) :
    (noResponse s).errCmd = s.errCmd := rfl
@[simp] theorem noResponse_eseq (s : State) :
    (noResponse s).eseq = s.eseq := rfl
@[simp] theorem noResponse_inputs (s : State) :
    (noResponse s).inputs = s.inputs := rfl
@[simp] theorem noResponse_rdata (s : State) :
    (noResponse s).rdata = none := rfl
@[simp] theorem noResponse_compressions (s : State) :
    (noResponse s).compressions = s.compressions := rfl

@[simp] theorem clearErrors_st (s : State) :
    (clearErrors s).st = s.st := rfl
@[simp] theorem clearErrors_wk (s : State) :
    (clearErrors s).wk = s.wk := rfl
@[simp] theorem clearErrors_mw (s : State) :
    (clearErrors s).mw = s.mw := rfl
@[simp] theorem clearErrors_buf (s : State) :
    (clearErrors s).buf = s.buf := rfl
@[simp] theorem clearErrors_cnt (s : State) :
    (clearErrors s).cnt = s.cnt := rfl
@[simp] theorem clearErrors_phase (s : State) :
    (clearErrors s).phase = s.phase := rfl
@[simp] theorem clearErrors_errLen (s : State) :
    (clearErrors s).errLen = false := rfl
@[simp] theorem clearErrors_errSeq (s : State) :
    (clearErrors s).errSeq = false := rfl
@[simp] theorem clearErrors_errCmd (s : State) :
    (clearErrors s).errCmd = false := rfl
@[simp] theorem clearErrors_eseq (s : State) :
    (clearErrors s).eseq = s.eseq := rfl
@[simp] theorem clearErrors_inputs (s : State) :
    (clearErrors s).inputs = s.inputs := rfl
@[simp] theorem clearErrors_rdata (s : State) :
    (clearErrors s).rdata = s.rdata := rfl
@[simp] theorem clearErrors_compressions (s : State) :
    (clearErrors s).compressions = s.compressions := rfl

@[simp] theorem unpackOp_st (s : State) :
    (unpackOp s).st = s.st := rfl
@[simp] theorem unpackOp_wk (s : State) :
    (unpackOp s).wk = s.st := rfl
@[simp] theorem unpackOp_mw (s : State) :
    (unpackOp s).mw = Vector.ofFn (fun j : Fin 16 => s.buf.word j) := rfl
@[simp] theorem unpackOp_buf (s : State) :
    (unpackOp s).buf = s.buf := rfl
@[simp] theorem unpackOp_cnt (s : State) :
    (unpackOp s).cnt = s.cnt := rfl
@[simp] theorem unpackOp_phase (s : State) :
    (unpackOp s).phase = s.phase := rfl
@[simp] theorem unpackOp_errLen (s : State) :
    (unpackOp s).errLen = s.errLen := rfl
@[simp] theorem unpackOp_errSeq (s : State) :
    (unpackOp s).errSeq = s.errSeq := rfl
@[simp] theorem unpackOp_errCmd (s : State) :
    (unpackOp s).errCmd = s.errCmd := rfl
@[simp] theorem unpackOp_eseq (s : State) :
    (unpackOp s).eseq = s.eseq := rfl
@[simp] theorem unpackOp_inputs (s : State) :
    (unpackOp s).inputs = s.inputs := rfl
@[simp] theorem unpackOp_rdata (s : State) :
    (unpackOp s).rdata = s.rdata := rfl
@[simp] theorem unpackOp_compressions (s : State) :
    (unpackOp s).compressions = s.compressions := rfl

@[simp] theorem stepWith_st (f : Word → Word → Word → Word) (i : BitVec 6) (s : State) :
    (stepWith f i s).st = s.st := rfl
@[simp] theorem stepWith_wk (f : Word → Word → Word → Word) (i : BitVec 6) (s : State) :
    (stepWith f i s).wk = stepWords f s.mw i s.wk := rfl
@[simp] theorem stepWith_mw (f : Word → Word → Word → Word) (i : BitVec 6) (s : State) :
    (stepWith f i s).mw = s.mw := rfl
@[simp] theorem stepWith_buf (f : Word → Word → Word → Word) (i : BitVec 6) (s : State) :
    (stepWith f i s).buf = s.buf := rfl
@[simp] theorem stepWith_cnt (f : Word → Word → Word → Word) (i : BitVec 6) (s : State) :
    (stepWith f i s).cnt = s.cnt := rfl
@[simp] theorem stepWith_phase (f : Word → Word → Word → Word) (i : BitVec 6) (s : State) :
    (stepWith f i s).phase = s.phase := rfl
@[simp] theorem stepWith_errLen (f : Word → Word → Word → Word) (i : BitVec 6) (s : State) :
    (stepWith f i s).errLen = s.errLen := rfl
@[simp] theorem stepWith_errSeq (f : Word → Word → Word → Word) (i : BitVec 6) (s : State) :
    (stepWith f i s).errSeq = s.errSeq := rfl
@[simp] theorem stepWith_errCmd (f : Word → Word → Word → Word) (i : BitVec 6) (s : State) :
    (stepWith f i s).errCmd = s.errCmd := rfl
@[simp] theorem stepWith_eseq (f : Word → Word → Word → Word) (i : BitVec 6) (s : State) :
    (stepWith f i s).eseq = s.eseq := rfl
@[simp] theorem stepWith_inputs (f : Word → Word → Word → Word) (i : BitVec 6) (s : State) :
    (stepWith f i s).inputs = s.inputs := rfl
@[simp] theorem stepWith_rdata (f : Word → Word → Word → Word) (i : BitVec 6) (s : State) :
    (stepWith f i s).rdata = s.rdata := rfl
@[simp] theorem stepWith_compressions (f : Word → Word → Word → Word) (i : BitVec 6) (s : State) :
    (stepWith f i s).compressions = s.compressions := rfl

@[simp] theorem stepOp_st (i : BitVec 6) (s : State) :
    (stepOp i s).st = s.st := rfl
@[simp] theorem stepOp_wk (i : BitVec 6) (s : State) :
    (stepOp i s).wk = stepPure s.mw i s.wk := rfl
@[simp] theorem stepOp_mw (i : BitVec 6) (s : State) :
    (stepOp i s).mw = s.mw := rfl
@[simp] theorem stepOp_buf (i : BitVec 6) (s : State) :
    (stepOp i s).buf = s.buf := rfl
@[simp] theorem stepOp_cnt (i : BitVec 6) (s : State) :
    (stepOp i s).cnt = s.cnt := rfl
@[simp] theorem stepOp_phase (i : BitVec 6) (s : State) :
    (stepOp i s).phase = s.phase := rfl
@[simp] theorem stepOp_errLen (i : BitVec 6) (s : State) :
    (stepOp i s).errLen = s.errLen := rfl
@[simp] theorem stepOp_errSeq (i : BitVec 6) (s : State) :
    (stepOp i s).errSeq = s.errSeq := rfl
@[simp] theorem stepOp_errCmd (i : BitVec 6) (s : State) :
    (stepOp i s).errCmd = s.errCmd := rfl
@[simp] theorem stepOp_eseq (i : BitVec 6) (s : State) :
    (stepOp i s).eseq = s.eseq := rfl
@[simp] theorem stepOp_inputs (i : BitVec 6) (s : State) :
    (stepOp i s).inputs = s.inputs := rfl
@[simp] theorem stepOp_rdata (i : BitVec 6) (s : State) :
    (stepOp i s).rdata = s.rdata := rfl
@[simp] theorem stepOp_compressions (i : BitVec 6) (s : State) :
    (stepOp i s).compressions = s.compressions := rfl

@[simp] theorem accumOp_st (s : State) :
    (accumOp s).st = s.st.add s.wk := rfl
@[simp] theorem accumOp_wk (s : State) :
    (accumOp s).wk = s.wk := rfl
@[simp] theorem accumOp_mw (s : State) :
    (accumOp s).mw = s.mw := rfl
@[simp] theorem accumOp_buf (s : State) :
    (accumOp s).buf = s.buf := rfl
@[simp] theorem accumOp_cnt (s : State) :
    (accumOp s).cnt = s.cnt := rfl
@[simp] theorem accumOp_phase (s : State) :
    (accumOp s).phase = s.phase := rfl
@[simp] theorem accumOp_errLen (s : State) :
    (accumOp s).errLen = s.errLen := rfl
@[simp] theorem accumOp_errSeq (s : State) :
    (accumOp s).errSeq = s.errSeq := rfl
@[simp] theorem accumOp_errCmd (s : State) :
    (accumOp s).errCmd = s.errCmd := rfl
@[simp] theorem accumOp_eseq (s : State) :
    (accumOp s).eseq = s.eseq := rfl
@[simp] theorem accumOp_inputs (s : State) :
    (accumOp s).inputs = s.inputs := rfl
@[simp] theorem accumOp_rdata (s : State) :
    (accumOp s).rdata = s.rdata := rfl
@[simp] theorem accumOp_compressions (s : State) :
    (accumOp s).compressions = s.compressions := rfl

@[simp] theorem retire_st (s : State) :
    (retire s).st = s.st := rfl
@[simp] theorem retire_wk (s : State) :
    (retire s).wk = s.wk := rfl
@[simp] theorem retire_mw (s : State) :
    (retire s).mw = s.mw := rfl
@[simp] theorem retire_buf (s : State) :
    (retire s).buf = s.buf := rfl
@[simp] theorem retire_cnt (s : State) :
    (retire s).cnt = s.cnt := rfl
@[simp] theorem retire_phase (s : State) :
    (retire s).phase = s.phase := rfl
@[simp] theorem retire_errLen (s : State) :
    (retire s).errLen = s.errLen := rfl
@[simp] theorem retire_errSeq (s : State) :
    (retire s).errSeq = s.errSeq := rfl
@[simp] theorem retire_errCmd (s : State) :
    (retire s).errCmd = s.errCmd := rfl
@[simp] theorem retire_eseq (s : State) :
    (retire s).eseq = .idle := rfl
@[simp] theorem retire_inputs (s : State) :
    (retire s).inputs = s.inputs := rfl
@[simp] theorem retire_rdata (s : State) :
    (retire s).rdata = s.rdata := rfl
@[simp] theorem retire_compressions (s : State) :
    (retire s).compressions = s.compressions + 1 := rfl

@[simp] theorem initOp_st (s : State) :
    (initOp s).st = iv := rfl
@[simp] theorem initOp_wk (s : State) :
    (initOp s).wk = s.wk := rfl
@[simp] theorem initOp_mw (s : State) :
    (initOp s).mw = s.mw := rfl
@[simp] theorem initOp_buf (s : State) :
    (initOp s).buf = s.buf := rfl
@[simp] theorem initOp_cnt (s : State) :
    (initOp s).cnt = 0#61 := rfl
@[simp] theorem initOp_phase (s : State) :
    (initOp s).phase = .absorb := rfl
@[simp] theorem initOp_errLen (s : State) :
    (initOp s).errLen = false := rfl
@[simp] theorem initOp_errSeq (s : State) :
    (initOp s).errSeq = false := rfl
@[simp] theorem initOp_errCmd (s : State) :
    (initOp s).errCmd = false := rfl
@[simp] theorem initOp_eseq (s : State) :
    (initOp s).eseq = s.eseq := rfl
@[simp] theorem initOp_inputs (s : State) :
    (initOp s).inputs = s.inputs := rfl
@[simp] theorem initOp_rdata (s : State) :
    (initOp s).rdata = s.rdata := rfl
@[simp] theorem initOp_compressions (s : State) :
    (initOp s).compressions = s.compressions := rfl

@[simp] theorem raiseError_st (e : ErrorKind) (s : State) :
    (raiseError e s).st = s.st := by cases e <;> rfl
@[simp] theorem raiseError_wk (e : ErrorKind) (s : State) :
    (raiseError e s).wk = s.wk := by cases e <;> rfl
@[simp] theorem raiseError_mw (e : ErrorKind) (s : State) :
    (raiseError e s).mw = s.mw := by cases e <;> rfl
@[simp] theorem raiseError_buf (e : ErrorKind) (s : State) :
    (raiseError e s).buf = s.buf := by cases e <;> rfl
@[simp] theorem raiseError_cnt (e : ErrorKind) (s : State) :
    (raiseError e s).cnt = s.cnt := by cases e <;> rfl
@[simp] theorem raiseError_phase (e : ErrorKind) (s : State) :
    (raiseError e s).phase = s.phase := by cases e <;> rfl
@[simp] theorem raiseError_errLen (e : ErrorKind) (s : State) :
    (raiseError e s).errLen = (decide (e = .len) || s.errLen) := by cases e <;> rfl
@[simp] theorem raiseError_errSeq (e : ErrorKind) (s : State) :
    (raiseError e s).errSeq = (decide (e = .seq) || s.errSeq) := by cases e <;> rfl
@[simp] theorem raiseError_errCmd (e : ErrorKind) (s : State) :
    (raiseError e s).errCmd = (decide (e = .cmd) || s.errCmd) := by cases e <;> rfl
@[simp] theorem raiseError_eseq (e : ErrorKind) (s : State) :
    (raiseError e s).eseq = s.eseq := by cases e <;> rfl
@[simp] theorem raiseError_inputs (e : ErrorKind) (s : State) :
    (raiseError e s).inputs = s.inputs := by cases e <;> rfl
@[simp] theorem raiseError_rdata (e : ErrorKind) (s : State) :
    (raiseError e s).rdata = s.rdata := by cases e <;> rfl
@[simp] theorem raiseError_compressions (e : ErrorKind) (s : State) :
    (raiseError e s).compressions = s.compressions := by cases e <;> rfl

@[simp] theorem presentInput_st (x : Input) (s : State) :
    (presentInput x s).st = s.st := rfl
@[simp] theorem presentInput_wk (x : Input) (s : State) :
    (presentInput x s).wk = s.wk := rfl
@[simp] theorem presentInput_mw (x : Input) (s : State) :
    (presentInput x s).mw = s.mw := rfl
@[simp] theorem presentInput_buf (x : Input) (s : State) :
    (presentInput x s).buf = s.buf := rfl
@[simp] theorem presentInput_cnt (x : Input) (s : State) :
    (presentInput x s).cnt = s.cnt := rfl
@[simp] theorem presentInput_phase (x : Input) (s : State) :
    (presentInput x s).phase = s.phase := rfl
@[simp] theorem presentInput_errLen (x : Input) (s : State) :
    (presentInput x s).errLen = s.errLen := rfl
@[simp] theorem presentInput_errSeq (x : Input) (s : State) :
    (presentInput x s).errSeq = s.errSeq := rfl
@[simp] theorem presentInput_errCmd (x : Input) (s : State) :
    (presentInput x s).errCmd = s.errCmd := rfl
@[simp] theorem presentInput_eseq (x : Input) (s : State) :
    (presentInput x s).eseq = .idle := rfl
@[simp] theorem presentInput_inputs (x : Input) (s : State) :
    (presentInput x s).inputs = x :: s.inputs := rfl
@[simp] theorem presentInput_rdata (x : Input) (s : State) :
    (presentInput x s).rdata = s.rdata := rfl
@[simp] theorem presentInput_compressions (x : Input) (s : State) :
    (presentInput x s).compressions = s.compressions := rfl

@[simp] theorem resetEvent_st (w : List Input) :
    (resetEvent w).st = State.reset.st := rfl
@[simp] theorem resetEvent_wk (w : List Input) :
    (resetEvent w).wk = State.reset.wk := rfl
@[simp] theorem resetEvent_mw (w : List Input) :
    (resetEvent w).mw = State.reset.mw := rfl
@[simp] theorem resetEvent_buf (w : List Input) :
    (resetEvent w).buf = State.reset.buf := rfl
@[simp] theorem resetEvent_cnt (w : List Input) :
    (resetEvent w).cnt = State.reset.cnt := rfl
@[simp] theorem resetEvent_phase (w : List Input) :
    (resetEvent w).phase = State.reset.phase := rfl
@[simp] theorem resetEvent_errLen (w : List Input) :
    (resetEvent w).errLen = State.reset.errLen := rfl
@[simp] theorem resetEvent_errSeq (w : List Input) :
    (resetEvent w).errSeq = State.reset.errSeq := rfl
@[simp] theorem resetEvent_errCmd (w : List Input) :
    (resetEvent w).errCmd = State.reset.errCmd := rfl
@[simp] theorem resetEvent_eseq (w : List Input) :
    (resetEvent w).eseq = State.reset.eseq := rfl
@[simp] theorem resetEvent_inputs (w : List Input) :
    (resetEvent w).inputs = w := rfl
@[simp] theorem resetEvent_rdata (w : List Input) :
    (resetEvent w).rdata = State.reset.rdata := rfl
@[simp] theorem resetEvent_compressions (w : List Input) :
    (resetEvent w).compressions = State.reset.compressions := rfl

/-- Raising an error sets its flag and no other. -/
@[simp] theorem errorFlag_raiseError (e e' : ErrorKind) (s : State) :
    errorFlag e' (raiseError e s) = (decide (e' = e) || errorFlag e' s) := by
  cases e <;> cases e' <;> rfl

end Sys2Proof.Machine
end

