-- ==== Sys2Proof/Laws/RoundEngine.lean ====
section
/-! SUPPORT. What a compression and the padding engine do, said once. -/

namespace Sys2Proof.Machine

/-- A run of steps changes `WK` and `ESEQ` only. -/
theorem runSteps_eq (is : List Nat) (s : State) :
    runSteps is s =
      { s with
        wk := is.foldl (fun wk i => stepPure s.mw (BitVec.ofNat 6 i) wk) s.wk
        eseq := (is.getLast?.map fun i => Eseq.step (BitVec.ofNat 6 i)).getD s.eseq } := by
  induction is generalizing s with
  | nil => rfl
  | cons i is ih =>
    rw [show runSteps (i :: is) s =
      runSteps is (stepOp (BitVec.ofNat 6 i) { s with eseq := .step (BitVec.ofNat 6 i) }) from rfl, ih]
    simp only [List.getLast?_cons, List.foldl_cons]
    cases is.getLast? <;> rfl

/-- A compression: `ST` takes `compress(BUF, ST)`, the unpacked words and the working registers take their last values, the
sequencer is idle, and nothing else changes but the model's count. -/
theorem compress_eq (s : State) :
    compress s =
      { s with
        st := compressBlock s.buf.bytes s.st
        mw := blockWords s.buf.bytes
        wk := roundsPure (blockWords s.buf.bytes) s.st
        eseq := .idle
        compressions := s.compressions + 1 } := by
  simp only [compress, runSteps_eq]
  simp [accumOp, retire, unpackOp, Memory.word_eq_blockWords, compressBlock, roundsPure]

@[simp] theorem compress_st (s : State) : (compress s).st = compressBlock s.buf.bytes s.st := by rw [compress_eq]
@[simp] theorem compress_mw (s : State) : (compress s).mw = blockWords s.buf.bytes := by rw [compress_eq]
@[simp] theorem compress_wk (s : State) : (compress s).wk = roundsPure (blockWords s.buf.bytes) s.st := by
  rw [compress_eq]
@[simp] theorem compress_buf (s : State) : (compress s).buf = s.buf := by rw [compress_eq]
@[simp] theorem compress_cnt (s : State) : (compress s).cnt = s.cnt := by rw [compress_eq]
@[simp] theorem compress_phase (s : State) : (compress s).phase = s.phase := by rw [compress_eq]
@[simp] theorem compress_errLen (s : State) : (compress s).errLen = s.errLen := by rw [compress_eq]
@[simp] theorem compress_errSeq (s : State) : (compress s).errSeq = s.errSeq := by rw [compress_eq]
@[simp] theorem compress_errCmd (s : State) : (compress s).errCmd = s.errCmd := by rw [compress_eq]
@[simp] theorem compress_eseq (s : State) : (compress s).eseq = .idle := by rw [compress_eq]
@[simp] theorem compress_inputs (s : State) : (compress s).inputs = s.inputs := by rw [compress_eq]
@[simp] theorem compress_rdata (s : State) : (compress s).rdata = s.rdata := by rw [compress_eq]
@[simp] theorem compress_compressions (s : State) : (compress s).compressions = s.compressions + 1 := by
  rw [compress_eq]

/-! ### The padding engine -/

/-- The buffer of the last padded block. -/
def lastBlockBuf (lo : Nat) (s : State) : Memory := (s.buf.zeroFill lo 55).writeLength (bitLength s.cnt)

theorem padLast_eq (lo : Nat) (s : State) : padLast lo s = compress { s with buf := lastBlockBuf lo s } := rfl

/-- The state with the `0x80` byte behind the tail. -/
def withPadMark (s : State) : State := { s with buf := s.buf.write (tailIdx s.cnt) 0x80#8 }

/-- The padding engine compresses one block for a tail of at most 55 bytes, else two. -/
theorem padAndCompress_cases (s : State) :
    (s.cnt.toNat % 64 ≤ 55 ∧ padAndCompress s = padLast (s.cnt.toNat % 64 + 1) (withPadMark s)) ∨
      (55 < s.cnt.toNat % 64 ∧ padAndCompress s =
        padLast 0 (compress { withPadMark s with buf := (withPadMark s).buf.zeroFill (s.cnt.toNat % 64 + 1) 63 })) := by
  by_cases h : s.cnt.toNat % 64 ≤ 55
  · exact .inl ⟨h, by simp [padAndCompress, h, withPadMark]⟩
  · exact .inr ⟨by omega, by simp [padAndCompress, h, withPadMark]⟩

/-- The padding engine changes `ST`, `MW`, `WK`, `BUF`, the sequencer (idle again) and the model's count, nothing else. -/
theorem padAndCompress_frame (s : State) :
    (padAndCompress s).cnt = s.cnt ∧ (padAndCompress s).phase = s.phase ∧ (padAndCompress s).errLen = s.errLen ∧
      (padAndCompress s).errSeq = s.errSeq ∧ (padAndCompress s).errCmd = s.errCmd ∧ (padAndCompress s).eseq = .idle ∧
      (padAndCompress s).inputs = s.inputs ∧ (padAndCompress s).rdata = s.rdata := by
  rcases padAndCompress_cases s with ⟨-, h⟩ | ⟨-, h⟩ <;> simp [h, padLast_eq, withPadMark]

theorem lastBlockBuf_wf (lo : Nat) {s : State} (h : s.buf.wf = true) : (lastBlockBuf lo s).wf = true :=
  Memory.wf_writeLength _ (Memory.wf_zeroFill _ _ h)

theorem padLast_wf (lo : Nat) {s : State} (h : s.buf.wf = true) : (padLast lo s).buf.wf = true := by
  have hb := lastBlockBuf_wf lo h
  simpa only [padLast_eq, compress_buf] using hb

/-- The padding engine keeps the buffer's canonical form. -/
theorem padAndCompress_wf {s : State} (h : s.buf.wf = true) : (padAndCompress s).buf.wf = true := by
  have hm : (withPadMark s).buf.wf = true := Memory.wf_write _ _ h
  have hz := Memory.wf_zeroFill (s.cnt.toNat % 64 + 1) 63 hm
  rcases padAndCompress_cases s with ⟨-, e⟩ | ⟨-, e⟩
  · rw [e]
    exact padLast_wf _ hm
  · rw [e]
    refine padLast_wf _ ?_
    simpa only [compress_buf] using hz

end Sys2Proof.Machine
end

