-- ==== Sys2Proof/Laws/Driver.lean ====
section
/-! SUPPORT. What the streaming driver's operations do: every way a data write or FINAL can go, and what each leaves. -/

namespace Sys2Proof.Machine

/-- The three answers of the acceptance check (42_driver.md R166). -/
theorem accept_cases (n : Nat) (s : State) :
    (s.phase ≠ .absorb ∧ accept n s = (raiseError .seq s, false)) ∨
      (s.phase = .absorb ∧ maxLen < s.cnt.toNat + n ∧
        accept n s = ({ raiseError .len s with phase := .failed }, false)) ∨
      (s.phase = .absorb ∧ s.cnt.toNat + n ≤ maxLen ∧ accept n s = (s, true)) := by
  by_cases hp : s.phase = .absorb
  · by_cases hc : s.cnt.toNat + n > maxLen
    · exact .inr (.inl ⟨hp, hc, by simp [accept, hp, hc]⟩)
    · exact .inr (.inr ⟨hp, by omega, by simp [accept, hp, hc]⟩)
  · exact .inl ⟨hp, by simp [accept, hp]⟩

/-- The three ways a data write can go (42_driver.md R166). -/
theorem dataWrite_cases (bs : List Byte) (s : State) :
    (s.phase ≠ .absorb ∧ dataWrite bs s = raiseError .seq s) ∨
      (s.phase = .absorb ∧ maxLen < s.cnt.toNat + bs.length ∧
        dataWrite bs s = { raiseError .len s with phase := .failed }) ∨
      (s.phase = .absorb ∧ s.cnt.toNat + bs.length ≤ maxLen ∧ dataWrite bs s = absorbBytes bs s) := by
  rcases accept_cases bs.length s with ⟨h, e⟩ | ⟨h, h', e⟩ | ⟨h, h', e⟩
  · exact .inl ⟨h, by simp [dataWrite, e]⟩
  · exact .inr (.inl ⟨h, h', by simp [dataWrite, e]⟩)
  · exact .inr (.inr ⟨h, h', by simp [dataWrite, e]⟩)

/-- The two ways FINAL can go (42_driver.md R164). -/
theorem finalOp_cases (s : State) :
    (s.phase ≠ .absorb ∧ finalOp s = raiseError .seq s) ∨
      (s.phase = .absorb ∧ finalOp s = { padAndCompress s with phase := .done }) := by
  by_cases hp : s.phase = .absorb
  · exact .inr ⟨hp, by simp [finalOp, hp]⟩
  · exact .inl ⟨hp, by simp [finalOp, hp]⟩

/-- The state with one byte more in the buffer and in the count. -/
def withByte (s : State) (b : Byte) : State :=
  { s with buf := s.buf.write (tailIdx s.cnt) b, cnt := s.cnt + 1#61 }

/-- The two ways ABSORB_BYTE can go (42_driver.md R167). -/
theorem absorbByte_cases (s : State) (b : Byte) :
    ((s.cnt + 1#61).toNat % 64 = 0 ∧ absorbByte s b = compress (withByte s b)) ∨
      ((s.cnt + 1#61).toNat % 64 ≠ 0 ∧ absorbByte s b = withByte s b) := by
  by_cases h : (s.cnt + 1#61).toNat % 64 = 0
  · exact .inl ⟨h, by unfold absorbByte; exact if_pos h⟩
  · exact .inr ⟨h, by unfold absorbByte; exact if_neg h⟩

@[simp] theorem absorbByte_buf (s : State) (b : Byte) :
    (absorbByte s b).buf = s.buf.write (tailIdx s.cnt) b := by
  rcases absorbByte_cases s b with ⟨-, h⟩ | ⟨-, h⟩ <;> simp [h, withByte]

@[simp] theorem absorbByte_cnt (s : State) (b : Byte) : (absorbByte s b).cnt = s.cnt + 1#61 := by
  rcases absorbByte_cases s b with ⟨-, h⟩ | ⟨-, h⟩ <;> simp [h, withByte]

@[simp] theorem absorbByte_phase (s : State) (b : Byte) : (absorbByte s b).phase = s.phase := by
  rcases absorbByte_cases s b with ⟨-, h⟩ | ⟨-, h⟩ <;> simp [h, withByte]

@[simp] theorem absorbByte_errLen (s : State) (b : Byte) : (absorbByte s b).errLen = s.errLen := by
  rcases absorbByte_cases s b with ⟨-, h⟩ | ⟨-, h⟩ <;> simp [h, withByte]

@[simp] theorem absorbByte_errSeq (s : State) (b : Byte) : (absorbByte s b).errSeq = s.errSeq := by
  rcases absorbByte_cases s b with ⟨-, h⟩ | ⟨-, h⟩ <;> simp [h, withByte]

@[simp] theorem absorbByte_errCmd (s : State) (b : Byte) : (absorbByte s b).errCmd = s.errCmd := by
  rcases absorbByte_cases s b with ⟨-, h⟩ | ⟨-, h⟩ <;> simp [h, withByte]

@[simp] theorem absorbByte_inputs (s : State) (b : Byte) : (absorbByte s b).inputs = s.inputs := by
  rcases absorbByte_cases s b with ⟨-, h⟩ | ⟨-, h⟩ <;> simp [h, withByte]

@[simp] theorem absorbByte_rdata (s : State) (b : Byte) : (absorbByte s b).rdata = s.rdata := by
  rcases absorbByte_cases s b with ⟨-, h⟩ | ⟨-, h⟩ <;> simp [h, withByte]

/-- An idle sequencer is idle again after a byte. -/
theorem absorbByte_eseq {s : State} (b : Byte) (h : s.eseq = .idle) : (absorbByte s b).eseq = .idle := by
  rcases absorbByte_cases s b with ⟨-, e⟩ | ⟨-, e⟩ <;> simp [e, withByte, h]

@[simp] theorem absorbBytes_nil (s : State) : absorbBytes [] s = s := rfl

@[simp] theorem absorbBytes_cons (b : Byte) (bs : List Byte) (s : State) :
    absorbBytes (b :: bs) s = absorbBytes bs (absorbByte s b) := rfl

/-- Absorbing bytes keeps the buffer's canonical form. -/
theorem absorbBytes_wf (bs : List Byte) {s : State} (h : s.buf.wf = true) : (absorbBytes bs s).buf.wf = true := by
  induction bs generalizing s with
  | nil => exact h
  | cons b bs ih => exact ih (by rw [absorbByte_buf]; exact Memory.wf_write _ _ h)

/-- Absorbing bytes changes `ST`, `WK`, `MW`, `BUF`, `CNT`, the sequencer and the model's count, nothing else. -/
theorem absorbBytes_frame (bs : List Byte) (s : State) :
    (absorbBytes bs s).phase = s.phase ∧ (absorbBytes bs s).errLen = s.errLen ∧
      (absorbBytes bs s).errSeq = s.errSeq ∧ (absorbBytes bs s).errCmd = s.errCmd ∧
      (absorbBytes bs s).inputs = s.inputs ∧ (absorbBytes bs s).rdata = s.rdata := by
  induction bs generalizing s with
  | nil => simp
  | cons b bs ih => simpa using ih (absorbByte s b)

theorem absorbBytes_eseq (bs : List Byte) {s : State} (h : s.eseq = .idle) : (absorbBytes bs s).eseq = .idle := by
  induction bs generalizing s with
  | nil => exact h
  | cons b bs ih => exact ih (absorbByte_eseq b h)

/-- A byte adds one to the count: below the limit it does not wrap. -/
theorem absorbByte_cnt_toNat {s : State} (b : Byte) (h : s.cnt.toNat < maxLen) :
    (absorbByte s b).cnt.toNat = s.cnt.toNat + 1 := by
  simp only [absorbByte_cnt, BitVec.toNat_add, BitVec.toNat_ofNat]
  simp only [maxLen] at h
  omega

/-- The count goes up by the number of bytes absorbed. -/
theorem absorbBytes_cnt_toNat (bs : List Byte) {s : State} (h : s.cnt.toNat + bs.length ≤ maxLen) :
    (absorbBytes bs s).cnt.toNat = s.cnt.toNat + bs.length := by
  induction bs generalizing s with
  | nil => rfl
  | cons b bs ih =>
    simp only [List.length_cons] at h ⊢
    have h1 := absorbByte_cnt_toNat b (s := s) (by omega)
    rw [absorbBytes_cons, ih (by omega), h1]
    omega

/-- A data write keeps the buffer's canonical form. -/
theorem dataWrite_wf (bs : List Byte) {s : State} (h : s.buf.wf = true) : (dataWrite bs s).buf.wf = true := by
  rcases dataWrite_cases bs s with ⟨-, e⟩ | ⟨-, -, e⟩ | ⟨-, -, e⟩
  · simpa [e] using h
  · simpa [e] using h
  · rw [e]; exact absorbBytes_wf bs h

/-- FINAL keeps the buffer's canonical form. -/
theorem finalOp_wf {s : State} (h : s.buf.wf = true) : (finalOp s).buf.wf = true := by
  have hp := padAndCompress_wf h
  rcases finalOp_cases s with ⟨-, e⟩ | ⟨-, e⟩
  · simpa [e] using h
  · simpa only [e] using hp

end Sys2Proof.Machine
end

