-- ==== Sys2Proof/Laws/Message.lean ====
section
/-! SUPPORT. The message absorbed since INIT, as the invariant names it: what each kind of access does to it. -/

namespace Sys2Proof.Safety

open Sys2Proof.Machine

theorem accepts_iff (m : List Byte) (s : State) (i : Instr) :
    accepts m s i = true ↔
      isData i = true ∧ s.phase = .absorb ∧ m.length + (messageBytes i).length ≤ maxLen := by
  simp [accepts, and_assoc]

theorem messageAfterAccess_init {m : List Byte} {s : State} {i : Instr} (h : isInit i = true) :
    messageAfterAccess m s i = [] := by
  simp [messageAfterAccess, h]

theorem messageAfterAccess_accepted {m : List Byte} {s : State} {i : Instr} (h : isInit i = false)
    (ha : accepts m s i = true) : messageAfterAccess m s i = m ++ messageBytes i := by
  simp [messageAfterAccess, h, ha]

theorem messageAfterAccess_other {m : List Byte} {s : State} {i : Instr} (h : isInit i = false)
    (ha : accepts m s i = false) : messageAfterAccess m s i = m := by
  simp [messageAfterAccess, h, ha]

theorem messageAfter_reset {m : List Byte} {s : State} {rest : List Input} (h : s.inputs = .reset :: rest) :
    messageAfter m s = [] := by
  simp [messageAfter, h]

theorem messageAfter_access {m : List Byte} {s : State} {v : HtWord} {rest : List Input}
    (h : s.inputs = .access v :: rest) : messageAfter m s = messageAfterAccess m s (decodeHT v) := by
  simp [messageAfter, h]

theorem messageAfter_wait {m : List Byte} {s : State} (h : s.inputs = []) : messageAfter m s = m := by
  simp [messageAfter, h]

/-- Holding no message is having counted nothing, with `ST` at its initial value. -/
theorem holdsMessage_nil (s : State) : HoldsMessage s [] ↔ s.cnt = 0#61 ∧ s.st = iv := by
  have h0 : chainOf [] = iv := rfl
  constructor
  · rintro ⟨hc, -, hs⟩
    exact ⟨BitVec.eq_of_toNat_eq hc, hs.trans h0⟩
  · rintro ⟨hc, hs⟩
    exact ⟨by simp [hc], fun k hk => absurd hk (by simp), hs.trans h0.symm⟩

end Sys2Proof.Safety
end

