-- ==== Sys2Proof/Laws/Step.lean ====
section
/-! SUPPORT. What one step can be: the five cases of `nextWork`, said once. -/

namespace Sys2Proof.Machine

/-- Reset comes first. -/
theorem step_reset {s : State} {rest : List Input} (h : s.inputs = .reset :: rest) :
    step s = .next (resetEvent rest) := by
  simp [step, nextWork, h]

/-- With no reset at the head of the inputs, a compression under way goes on by one micro-operation. -/
theorem step_sequenced {s : State} {w : RcwWord} (hr : ∀ rest, s.inputs ≠ .reset :: rest)
    (h : controlWord s.eseq = some w) : step s = mapNext advance (exec (decodeRCW w) s) := by
  have : nextWork s = .sequenced (decodeRCW w) s := by
    unfold nextWork
    split
    · exact absurd ‹_› (hr _)
    · simp [h]
  simp [step, this]

/-- An idle block takes the oldest access. -/
theorem step_access {s : State} {v : HtWord} {rest : List Input} (he : s.eseq = .idle)
    (h : s.inputs = .access v :: rest) : step s = exec (decodeHT v) { s with inputs := rest } := by
  simp [step, nextWork, h, he, controlWord]

/-- An idle block takes a control word presented by name. -/
theorem step_control {s : State} {w : RcwWord} {rest : List Input} (he : s.eseq = .idle)
    (h : s.inputs = .control w :: rest) : step s = exec (decodeRCW w) { s with inputs := rest } := by
  simp [step, nextWork, h, he, controlWord]

/-- An idle block with nothing at its inputs waits. -/
theorem step_wait {s : State} (he : s.eseq = .idle) (h : s.inputs = []) : step s = .next s := by
  simp [step, nextWork, h, he, controlWord]

theorem controlWord_eq_none {e : Eseq} : controlWord e = none ↔ e = .idle := by
  cases e <;> simp [controlWord]

/-- One step, every case. -/
theorem step_cases (s : State) :
    (∃ rest, s.inputs = .reset :: rest ∧ step s = .next (resetEvent rest)) ∨
      (∃ w, controlWord s.eseq = some w ∧ step s = mapNext advance (exec (decodeRCW w) s)) ∨
      (∃ v rest, s.eseq = .idle ∧ s.inputs = .access v :: rest ∧
        step s = exec (decodeHT v) { s with inputs := rest }) ∨
      (∃ w rest, s.eseq = .idle ∧ s.inputs = .control w :: rest ∧
        step s = exec (decodeRCW w) { s with inputs := rest }) ∨
      (s.eseq = .idle ∧ s.inputs = [] ∧ step s = .next s) := by
  by_cases hr : ∃ rest, s.inputs = .reset :: rest
  · obtain ⟨rest, h⟩ := hr
    exact .inl ⟨rest, h, step_reset h⟩
  · have hr' : ∀ rest, s.inputs ≠ .reset :: rest := fun rest h => hr ⟨rest, h⟩
    rcases hc : controlWord s.eseq with _ | w
    · have he := controlWord_eq_none.1 hc
      rcases hi : s.inputs with _ | ⟨x, rest⟩
      · exact .inr (.inr (.inr (.inr ⟨he, rfl, step_wait he hi⟩)))
      · cases x with
        | reset => exact absurd hi (hr' rest)
        | access v => exact .inr (.inr (.inl ⟨v, rest, he, rfl, step_access he hi⟩))
        | control w => exact .inr (.inr (.inr (.inl ⟨w, rest, he, rfl, step_control he hi⟩)))
    · exact .inr (.inl ⟨w, rfl, step_sequenced hr' hc⟩)

/-- A step that goes on from a mapped outcome goes on from the outcome. -/
theorem mapNext_eq_next {f : State → State} {o : Host.Outcome State Fault Refusal} {t : State}
    (h : mapNext f o = .next t) : ∃ u, o = .next u ∧ t = f u := by
  cases o with
  | next u => exact ⟨u, rfl, by simpa [mapNext] using h.symm⟩
  | fault r => cases r
  | refused r => simp [mapNext] at h

end Sys2Proof.Machine
end

