-- ==== Sys2Proof/Tests/Slice0.lean ====
section
/-! SUPPORT. The model's own tests. Expected values come from spec/: the encodings of 30_encoding.md and the opcode table, the
worked examples of the rules, and the vectors of 95_test_vectors.md; each theorem names its source. The last section gives,
for every statement with hypotheses, a concrete case that meets them. -/

namespace Sys2Proof.Tests

open Sys2Proof.Machine Sys2Proof.Safety

/-! ### Well-formedness: an ill-formed term for each check, refused -/

theorem test_wf_refuses_commands :
    WellFormed (.cmdRsvd4to7 8#4 0#28) = false ∧ WellFormed (.cmdRsvd4to7 3#4 0#28) = false ∧
      WellFormed (.cmdRsvd8toF 7#4 0#28) = false := by decide

theorem test_wf_refuses_indices :
    WellFormed (.rdRsvd6to7 8#6 0#32) = false ∧ WellFormed (.rdRsvd12to15 16#6 0#32) = false ∧
      WellFormed (.rdRsvd24to31 23#6 0#32) = false ∧ WellFormed (.rdRsvd32to63 31#6 0#32) = false ∧
      WellFormed (.wrRsvd6to7 5#6 0#32) = false ∧ WellFormed (.wrRsvd12to15 11#6 0#32) = false ∧
      WellFormed (.wrRsvd24to31 32#6 0#32) = false ∧ WellFormed (.wrRsvd32to63 0#6 0#32) = false := by decide

theorem test_wf_refuses_steps :
    WellFormed (.stepF 16#6) = false ∧ WellFormed (.stepG 15#6) = false ∧ WellFormed (.stepH 48#6) = false ∧
      WellFormed (.stepI 47#6) = false := by decide

theorem test_wf_refuses_control :
    WellFormed (.rcwRsvd02to03 0x01#8) = false ∧ WellFormed (.rcwRsvd04to07 0x08#8) = false ∧
      WellFormed (.rcwRsvd08to0F 0x07#8) = false ∧ WellFormed (.rcwRsvd10to1F 0x20#8) = false ∧
      WellFormed (.rcwRsvd20to3F 0x40#8) = false ∧ WellFormed (.rcwRsvd40to7F 0x80#8) = false ∧
      WellFormed (.rcwRsvdC0toFF 0xBF#8) = false := by decide

/-! ### Decoding: a word written out for every constructor (30_encoding.md R71 to R79, opcode_table.json) -/

theorem test_decode_commands :
    decodeHT 0x4000000000#39 = .nop 0#28 ∧ decodeHT 0x4000000001#39 = .init 0#28 ∧
      decodeHT 0x4000000012#39 = .final 1#28 ∧ decodeHT 0x40FFFFFFF3#39 = .cmdRsvd3 0xFFFFFFF#28 ∧
      decodeHT 0x4000000007#39 = .cmdRsvd4to7 7#4 0#28 ∧ decodeHT 0x400000000F#39 = .cmdRsvd8toF 0xF#4 0#28 := by decide

theorem test_decode_data :
    decodeHT 0x4264636261#39 = .dataW 0x61#8 0x62#8 0x63#8 0x64#8 ∧ decodeHT 0x4300000161#39 = .dataB 0x61#8 1#24 := by
  decide

theorem test_decode_reads :
    decodeHT 0x0100000000#39 = .rdStatus 0#32 ∧ decodeHT 0x0400000000#39 = .rdLenLo 0#32 ∧
      decodeHT 0x0500000000#39 = .rdLenHi 0#32 ∧ decodeHT 0x0B00000000#39 = .rdDigest 3#2 0#32 ∧
      decodeHT 0x1700000000#39 = .rdHex 7#3 0#32 ∧ decodeHT 0x0000000000#39 = .rdCmd 0#32 ∧
      decodeHT 0x0200000000#39 = .rdDataW 0#32 ∧ decodeHT 0x0300000000#39 = .rdDataB 0#32 := by decide

theorem test_decode_read_only_writes :
    decodeHT 0x41FFFFFFFF#39 = .wrStatus 0xFFFFFFFF#32 ∧ decodeHT 0x4400000000#39 = .wrLenLo 0#32 ∧
      decodeHT 0x4500000000#39 = .wrLenHi 0#32 ∧ decodeHT 0x4800000000#39 = .wrDigest 0#2 0#32 ∧
      decodeHT 0x5500000000#39 = .wrHex 5#3 0#32 := by decide

theorem test_decode_reserved_indices :
    decodeHT 0x0700000000#39 = .rdRsvd6to7 7#6 0#32 ∧ decodeHT 0x0C00000000#39 = .rdRsvd12to15 12#6 0#32 ∧
      decodeHT 0x1800000000#39 = .rdRsvd24to31 24#6 0#32 ∧ decodeHT 0x3F00000000#39 = .rdRsvd32to63 63#6 0#32 ∧
      decodeHT 0x4600000005#39 = .wrRsvd6to7 6#6 5#32 ∧ decodeHT 0x4F00000000#39 = .wrRsvd12to15 15#6 0#32 ∧
      decodeHT 0x5F00000000#39 = .wrRsvd24to31 31#6 0#32 ∧ decodeHT 0x6000000000#39 = .wrRsvd32to63 32#6 0#32 := by
  decide

theorem test_decode_micro_operations :
    decodeRCW 0x00#8 = .unpack ∧ decodeRCW 0x01#8 = .accum ∧ decodeRCW 0x8F#8 = .stepF 15#6 ∧
      decodeRCW 0x90#8 = .stepG 16#6 ∧ decodeRCW 0xAF#8 = .stepH 47#6 ∧ decodeRCW 0xB0#8 = .stepI 48#6 := by decide

theorem test_decode_reserved_control :
    decodeRCW 0x03#8 = .rcwRsvd02to03 0x03#8 ∧ decodeRCW 0x04#8 = .rcwRsvd04to07 0x04#8 ∧
      decodeRCW 0x0F#8 = .rcwRsvd08to0F 0x0F#8 ∧ decodeRCW 0x10#8 = .rcwRsvd10to1F 0x10#8 ∧
      decodeRCW 0x3F#8 = .rcwRsvd20to3F 0x3F#8 ∧ decodeRCW 0x40#8 = .rcwRsvd40to7F 0x40#8 ∧
      decodeRCW 0xC0#8 = .rcwRsvdC0toFF 0xC0#8 := by decide

theorem test_decode_bytes :
    decodeBytes [0x61#8, 0x00#8, 0x00#8, 0x00#8, 0x43#8] = .instr (.dataB 0x61#8 0#24) ∧
      decodeBytes [0x9F#8] = .instr (.stepG 31#6) ∧
      decodeBytes [0x00#8, 0x00#8, 0x00#8, 0x00#8, 0xC0#8] = .rejected .bit39Set ∧
      decodeBytes [] = .rejected (.wrongLength 0) ∧ decodeBytes [0#8, 0#8] = .rejected (.wrongLength 2) := by decide

theorem test_decode_table_words :
    decodeTableWord 40 0x4264636261 = some (.dataW 0x61#8 0x62#8 0x63#8 0x64#8) ∧
      decodeTableWord 8 0x01 = some .accum ∧ decodeTableWord 8 0x100 = none ∧
      decodeTableWord 40 0x8000000000 = none := by decide

/-! ### A small state and one step -/

/-- A state with an open message: its count and its buffer cells. -/
def absorbing (cnt : BitVec 61) (buf : Memory) : State := { State.reset with phase := .absorb, cnt := cnt, buf := buf }

/-- "abc" absorbed (95_test_vectors.md T-D3). -/
def abc : State := absorbing 3#61 [(0, 0x61#8), (1, 0x62#8), (2, 0x63#8)]

/-- The next state, if there is one. -/
def after (i : Instr) (s : State) : Option State :=
  match exec i s with
  | .next t => some t
  | .fault _ => none
  | .refused _ => none

/-- One field of the next state. -/
def seen {α : Type} (f : State → α) (i : Instr) (s : State) : Option α := (after i s).map f

/-! ### Commands -/

/-- R162: with `STATUS = 0x00000001`, NOP leaves it. -/
theorem test_nop_keeps_status : seen statusWord (.nop 0#28) (absorbing 0#61 []) = some 0x00000001#32 := by decide

/-- R163 and T-E6: INIT in FAILED clears everything. -/
theorem test_init_recovers :
    seen statusWord (.init 5#28) { abc with phase := .failed, errLen := true, errSeq := true } = some 0x00000001#32 := by
  decide

/-- V1: the digest of the empty message. -/
theorem test_final_empty :
    seen State.st (.final 0#28) (absorbing 0#61 []) =
      some ⟨0xd98c1dd4#32, 0x04b2008f#32, 0x980980e9#32, 0x7e42f8ec#32⟩ := by decide +kernel

/-- Program 4: 56 bytes of "a" take two padded blocks. -/
theorem test_final_two_blocks :
    seen (fun t => (t.st, t.compressions, statusWord t)) (.final 0#28)
      (absorbing 56#61 ((List.range 56).map fun k => (k, 0x61#8))) =
      some (⟨0xc78a0c3b#32, 0xb028f803#32, 0x70196c4c#32, 0x1872d106#32⟩, 2, 0x00003802#32) := by decide +kernel

/-- T-E3: a reserved command code from reset. -/
theorem test_reserved_commands :
    seen statusWord (.cmdRsvd3 0#28) State.reset = some 0x00000010#32 ∧
      seen statusWord (.cmdRsvd4to7 7#4 0#28) State.reset = some 0x00000010#32 ∧
      seen statusWord (.cmdRsvd8toF 0xF#4 0#28) State.reset = some 0x00000010#32 := by decide

/-! ### Data writes -/

/-- R168: "abcd" after INIT. -/
theorem test_data_w :
    seen (fun t => (t.buf, statusWord t)) (.dataW 0x61#8 0x62#8 0x63#8 0x64#8) (absorbing 0#61 []) =
      some ([(0, 0x61#8), (1, 0x62#8), (2, 0x63#8), (3, 0x64#8)], 0x00000401#32) := by decide

/-- T-E5: a DATA_W at `CNT = 2^61 - 2` is refused whole. -/
theorem test_data_w_too_long :
    seen (fun t => (statusWord t, lenLo t, lenHi t)) (.dataW 0x44#8 0x33#8 0x22#8 0x11#8)
      (absorbing (BitVec.ofNat 61 (2 ^ 61 - 2)) []) =
      some (0x00003E07#32, 0xFFFFFFFE#32, 0x1FFFFFFF#32) := by decide

/-- T-D4: the 64th "a" completes a block. -/
theorem test_data_b_completes_block :
    seen (fun t => (statusWord t, t.st.a)) (.dataB 0x61#8 0#24)
      (absorbing 63#61 ((List.range 63).map fun k => (k, 0x61#8))) = some (0x00000001#32, 0x89D4FF56#32) := by
  decide +kernel

/-- T-E1: a data write after reset. -/
theorem test_data_b_after_reset :
    seen (fun t => (statusWord t, t.cnt, t.buf)) (.dataB 0x61#8 0#24) State.reset = some (0x00000008#32, 0#61, []) := by
  decide

/-! ### Reads and benign accesses -/

/-- T-D3 and T-E5: STATUS with a tail, and with two flags in FAILED. -/
theorem test_rd_status :
    seen State.rdata (.rdStatus 0#32) abc = some (some 0x00000301#32) ∧
      seen State.rdata (.rdStatus 0#32)
        { absorbing (BitVec.ofNat 61 (2 ^ 61 - 2)) [] with phase := .failed, errLen := true, errSeq := true } =
        some (some 0x00003E0F#32) := by decide

/-- T-D5: `CNT = 2^32 + 5`. -/
theorem test_rd_len :
    seen State.rdata (.rdLenLo 0#32) (absorbing (BitVec.ofNat 61 (2 ^ 32 + 5)) []) = some (some 5#32) ∧
      seen State.rdata (.rdLenHi 0#32) (absorbing (BitVec.ofNat 61 (2 ^ 32 + 5)) []) = some (some 1#32) := by decide

/-- R43: DIGEST_B and DIGEST_D after reset. -/
theorem test_rd_digest :
    seen State.rdata (.rdDigest 1#2 0#32) State.reset = some (some 0xefcdab89#32) ∧
      seen State.rdata (.rdDigest 3#2 7#32) State.reset = some (some 0x10325476#32) := by decide

/-- The hex formatter's table: HEX3 and HEX4 of `IV`. -/
theorem test_rd_hex :
    seen State.rdata (.rdHex 3#3 0#32) State.reset = some (some 0x66656463#32) ∧
      seen State.rdata (.rdHex 4#3 0#32) State.reset = some (some 0x63646566#32) := by decide

/-- T-D8: benign reads return 0, and a DATA_W read absorbs nothing. -/
theorem test_benign_reads :
    seen State.rdata (.rdCmd 0#32) abc = some (some 0#32) ∧ seen State.rdata (.rdDataB 0#32) abc = some (some 0#32) ∧
      seen State.cnt (.rdDataW 1#32) abc = some 3#61 ∧ seen State.rdata (.rdRsvd6to7 6#6 0#32) abc = some (some 0#32) ∧
      seen State.rdata (.rdRsvd12to15 12#6 0#32) abc = some (some 0#32) ∧
      seen State.rdata (.rdRsvd24to31 24#6 0#32) abc = some (some 0#32) ∧
      seen State.rdata (.rdRsvd32to63 63#6 0#32) abc = some (some 0#32) := by decide

/-- T-D9: benign writes are ignored. -/
theorem test_benign_writes :
    after (.wrStatus 0xFFFFFFFF#32) abc = some abc ∧ after (.wrLenLo 1#32) abc = some abc ∧
      after (.wrLenHi 1#32) abc = some abc ∧ after (.wrDigest 0#2 0#32) abc = some abc ∧
      after (.wrHex 0#3 0#32) abc = some abc ∧ after (.wrRsvd6to7 6#6 5#32) abc = some abc ∧
      after (.wrRsvd12to15 13#6 5#32) abc = some abc ∧ after (.wrRsvd24to31 30#6 5#32) abc = some abc ∧
      after (.wrRsvd32to63 40#6 5#32) abc = some abc := by decide

/-! ### The round engine -/

/-- A state of the datapath: `WK`, and one message word at its index. -/
def datapath (wk : Quad) (g : Fin 16) (m : Word) : State :=
  { State.reset with wk := wk, mw := State.reset.mw.set g.val m }

/-- R121: UNPACK on the padded block of "abc". -/
theorem test_unpack :
    seen (fun t => (t.mw[0], t.mw[1], t.mw[14], t.wk)) .unpack
      { abc with buf := [(0, 0x61#8), (1, 0x62#8), (2, 0x63#8), (3, 0x80#8), (56, 0x18#8)] } =
      some (0x80636261#32, 0#32, 0x00000018#32, iv) := by decide

/-- R137's second vector: every lane wraps. -/
theorem test_accum_wraps :
    seen State.st .accum
      { State.reset with
        st := ⟨0xffffffff#32, 0x80000000#32, 0#32, 0x12345678#32⟩
        wk := ⟨1#32, 0x80000000#32, 0#32, 0xedcba988#32⟩ } = some ⟨0#32, 0#32, 0#32, 0#32⟩ := by decide

/-- R133 and row 15 of the trace. -/
theorem test_step_f :
    seen State.wk (.stepF 0#6) (datapath iv 0 0x80636261#32) =
        some ⟨0xd6d117b4#32, 0xefcdab89#32, 0x98badcfe#32, 0x10325476#32⟩ ∧
      seen State.wk (.stepF 15#6) (datapath ⟨0xdda9b9a6#32, 0x5ed49596#32, 0xe396856b#32, 0xa1051895#32⟩ 15 0#32) =
        some ⟨0xdda9b9a6#32, 0x72aff2e0#32, 0xe396856b#32, 0xa1051895#32⟩ := by decide

/-- R134 and row 25 of the trace. -/
theorem test_step_g :
    seen State.wk (.stepG 16#6) (datapath ⟨0xdda9b9a6#32, 0x72aff2e0#32, 0xe396856b#32, 0xa1051895#32⟩ 1 0#32) =
        some ⟨0x3e9e9126#32, 0x72aff2e0#32, 0xe396856b#32, 0xa1051895#32⟩ ∧
      seen State.wk (.stepG 25#6) (datapath ⟨0xb7f268cf#32, 0x47092c07#32, 0xabfc7920#32, 0x6d002f1e#32⟩ 14 0x18#32) =
        some ⟨0xb7f268cf#32, 0x47092c07#32, 0xabfc7920#32, 0x09388eff#32⟩ := by decide

/-- R135 and row 41 of the trace. -/
theorem test_step_h :
    seen State.wk (.stepH 32#6) (datapath ⟨0x790a77fb#32, 0x726342d3#32, 0xa62884aa#32, 0x9f47e4f8#32⟩ 5 0#32) =
        some ⟨0xb3707ebf#32, 0x726342d3#32, 0xa62884aa#32, 0x9f47e4f8#32⟩ ∧
      seen State.wk (.stepH 41#6)
        (datapath ⟨0x11de1779#32, 0x5a2f5ea5#32, 0x3575227e#32, 0x6e7429d5#32⟩ 0 0x80636261#32) =
        some ⟨0x11de1779#32, 0x5a2f5ea5#32, 0x3575227e#32, 0xfadcaa38#32⟩ := by decide

/-- R136 and row 50 of the trace. -/
theorem test_step_i :
    seen State.wk (.stepI 48#6)
        (datapath ⟨0x7f2e507b#32, 0x7beb9700#32, 0x8fae6399#32, 0x99d9679d#32⟩ 0 0x80636261#32) =
        some ⟨0x7b201df8#32, 0x7beb9700#32, 0x8fae6399#32, 0x99d9679d#32⟩ ∧
      seen State.wk (.stepI 50#6) (datapath ⟨0x7b201df8#32, 0x7beb9700#32, 0x8fae6399#32, 0xf4e8e96e#32⟩ 14 0x18#32) =
        some ⟨0x7b201df8#32, 0x7beb9700#32, 0xb298cefd#32, 0xf4e8e96e#32⟩ := by decide

/-- "Whole compressions from IV": a block of 64 zero bytes. -/
theorem test_compress_zero_block :
    (compress State.reset).st = ⟨0x031f1dac#32, 0x6ea58ed0#32, 0x1fab67b7#32, 0x74317791#32⟩ := by decide +kernel

/-- R82: a reserved control word is refused. -/
theorem test_reserved_control_refused :
    after (.rcwRsvd02to03 2#8) abc = none ∧ after (.rcwRsvdC0toFF 0xFF#8) abc = none := by decide

/-! ### The digest functions (V2, T-P1) -/

theorem test_md5_abc :
    md5state [0x61#8, 0x62#8, 0x63#8] = ⟨0x98500190#32, 0xb04fd23c#32, 0x7d3f96d6#32, 0x727fe128#32⟩ := by decide +kernel

theorem test_memory_canonical :
    Memory.write [(3, 1#8)] 3 0#8 = [] ∧ Memory.write [(3, 1#8)] 2 7#8 = [(2, 7#8), (3, 1#8)] := by decide

/-! ### Witnesses: every statement's hypotheses are met by a concrete case -/

/-- `abc` at the end of a block, in the canonical form, with `n` bytes absorbed. -/
def tailOf (n : Nat) : State := absorbing (BitVec.ofNat 61 n) [(5, 0x41#8)]

theorem witness_DecodeOfEncode : WellFormed (.stepI 63#6) = true ∧ WellFormed (.cmdRsvd8toF 0xF#4 9#28) = true := by
  decide

theorem witness_BytesRoundTrip :
    WellFormed (.dataB 1#8 2#24) = true ∧ ([] : List Byte).length ≠ 1 ∧ ([] : List Byte).length ≠ 5 := by decide

theorem witness_WriteIgnoresUpperBits :
    (0xFFFFFFF1#32).extractLsb' 0 4 = (1#32).extractLsb' 0 4 ∧ (0x161#32).extractLsb' 0 8 = (0x61#32).extractLsb' 0 8 := by
  decide

theorem witness_WindowAddresses : widxAt (windowAddress 63#6) = some 63#6 := by
  simp [widxAt, windowAddress, byteOffset]

theorem witness_StepRunsDecoded :
    ({ abc with inputs := [.access 0x4000000002#39] } : State).eseq = .idle ∧
      ({ abc with inputs := [.control 0x02#8] } : State).inputs = .control 0x02#8 :: [] ∧
      controlWord ({ abc with eseq := .step 63#6 } : State).eseq = some 0xBF#8 ∧ abc.inputs = [] := by decide

theorem witness_PresentedWordRuns : decodeTableWord 8 0xFF = some (.rcwRsvdC0toFF 0xFF#8) := by decide

theorem witness_ResetTakesPrecedence :
    ({ abc with eseq := .accum, inputs := [.reset] } : State).inputs = .reset :: [] := by decide

theorem witness_OutOfPhaseSetsFlag :
    State.reset.phase ≠ .absorb ∧ ({ abc with phase := .done } : State).phase ≠ .absorb ∧
      ({ abc with phase := .failed } : State).phase ≠ .absorb := by decide

theorem witness_FinalPadsAndPublishes :
    (tailOf 55).phase = .absorb ∧ (tailOf 55).buf.wf = true ∧ (tailOf 56).phase = .absorb ∧ (tailOf 56).buf.wf = true := by
  decide

theorem witness_DataWriteAcceptance :
    isData (.dataW 1#8 2#8 3#8 4#8) = true ∧ isData (.dataB 1#8 0#24) = true ∧ State.reset.phase ≠ .absorb ∧
      (tailOf (2 ^ 61 - 4)).phase = .absorb ∧ maxLen < (tailOf (2 ^ 61 - 4)).cnt.toNat + 4 ∧
      (tailOf (2 ^ 61 - 5)).cnt.toNat + 4 ≤ maxLen := by decide

theorem witness_ByteGoesToTail :
    (tailOf 63).phase = .absorb ∧ (tailOf 63).cnt.toNat + 1 ≤ maxLen ∧ (tailOf 63).buf.wf = true ∧
      (tailOf 63).eseq = .idle ∧ (tailOf 62).cnt.toNat + 1 ≤ maxLen := by decide

theorem witness_WordIsFourBytes : (tailOf 61).phase = .absorb ∧ (tailOf 61).cnt.toNat + 4 ≤ maxLen := by decide

theorem witness_AlignedWordIsMessageWord :
    (tailOf 60).phase = .absorb ∧ (tailOf 60).cnt.toNat + 4 ≤ maxLen ∧ (tailOf 60).cnt.toNat % 4 = 0 ∧
      (tailOf 60).buf.wf = true := by decide

theorem witness_ReadsHaveNoSideEffects : isRead (.rdHex 7#3 0#32) = true ∧ isRead (.rdRsvd6to7 7#6 1#32) = true := by
  decide

theorem witness_StepWritesAccumulator :
    (15#6).toNat < 16 ∧ 16 ≤ (16#6).toNat ∧ (31#6).toNat < 32 ∧ 32 ≤ (32#6).toNat ∧ (47#6).toNat < 48 ∧
      48 ≤ (48#6).toNat := by decide

theorem witness_RotationMovesBits : 0 < 4 ∧ 23 < 32 ∧ 31 < 32 := by decide

theorem witness_CompressionIsItsMicroOps : ∀ rest, abc.inputs ≠ .reset :: rest := by simp [abc, absorbing, State.reset]

theorem witness_WritersOfChainingState :
    seen State.st (.init 0#28) { abc with st := ⟨0#32, 0#32, 0#32, 0#32⟩ } = some iv ∧ (after .unpack abc).isSome = true ∧
      (after (.stepF 0#6) abc).isSome = true := by decide

theorem witness_PaddedTailContent :
    ([] : List Byte).length < 64 ∧ (List.replicate 55 0x61#8).length < 64 ∧ (List.replicate 56 0x61#8).length < 64 ∧
      (List.replicate 63 0x61#8).length < 64 := by decide

theorem witness_LengthFieldWords : (List.replicate 63 0x61#8).length < 64 := by decide

theorem witness_FlagsAreSticky :
    seen (errorFlag .len) (.dataB 1#8 0#24) (tailOf (2 ^ 61 - 1)) = some true ∧
      seen (errorFlag .seq) (.final 0#28) State.reset = some true ∧
      seen (errorFlag .cmd) (.cmdRsvd3 0#28) abc = some true ∧
      seen (errorFlag .cmd) (.init 0#28) { abc with errCmd := true } = some false ∧
      step { abc with inputs := [.reset] } = .next State.reset := by
  exact ⟨by decide, by decide, by decide, by decide, rfl⟩

theorem witness_AtMostOneErrorPerAccess :
    errorFlag .seq State.reset = false ∧ seen (errorFlag .seq) (.dataB 1#8 0#24) State.reset = some true := by decide

theorem witness_PhaseTransitions :
    seen State.phase (.init 0#28) State.reset = some .absorb ∧
      seen State.phase (.dataW 1#8 2#8 3#8 4#8) (tailOf (2 ^ 61 - 1)) = some .failed ∧
      (seen State.phase (.final 0#28) abc = some .done) := by
  exact ⟨by decide, by decide, by decide +kernel⟩

theorem witness_CountNeverWraps :
    seen State.cnt (.dataB 1#8 0#24) (tailOf (2 ^ 61 - 2)) = some (BitVec.ofNat 61 (2 ^ 61 - 1)) ∧
      seen State.cnt (.dataB 1#8 0#24) (tailOf (2 ^ 61 - 1)) = some (BitVec.ofNat 61 (2 ^ 61 - 1)) ∧
      seen State.cnt (.init 0#28) (tailOf 5) = some 0#61 := by decide

theorem witness_EveryAccessCompletes :
    isAccess (.final 0#28) = true ∧ isAccess (.dataW 0#8 0#8 0#8 0#8) = true ∧ isAccess (.rdCmd 0#32) = true ∧
      abc.eseq = .idle ∧ abc.phase = .absorb := by decide

theorem witness_StepKeepsBufferCanonical :
    State.reset.buf.wf = true ∧ step State.reset = .next State.reset := ⟨rfl, rfl⟩

theorem witness_StepKeepsPhaseConsistent :
    PhaseConsistent { abc with inputs := [.access 0x4000000007#39] } ∧
      step { abc with inputs := [.access 0x4000000007#39] } = .next { abc with errCmd := true } := by
  exact ⟨by simp [PhaseConsistent, abc, absorbing, State.reset], rfl⟩

/-- A message of three bytes is held with its tail in the buffer. -/
theorem abc_holds : HoldsMessage abc [0x61#8, 0x62#8, 0x63#8] := ⟨by decide, by decide, by decide⟩

theorem abc_sound : Sound [0x61#8, 0x62#8, 0x63#8] abc :=
  ⟨by decide, ⟨rfl, rfl⟩, ⟨by decide, fun _ => rfl⟩, abc_holds⟩

/-- The invariant's hypotheses at a state with a step, and each clause of the access lemma at a form that falls under it. -/
theorem witness_StepKeepsSound :
    Sound [0x61#8, 0x62#8, 0x63#8] abc ∧ step abc = .next abc ∧ abc.buf.wf = true ∧
      HoldsMessage abc [0x61#8, 0x62#8, 0x63#8] ∧ abc.phase = .absorb ∧
      accepts [0x61#8, 0x62#8, 0x63#8] abc (.dataW 1#8 2#8 3#8 4#8) = true ∧
      accepts [0x61#8, 0x62#8, 0x63#8] abc (.rdStatus 0#32) = false ∧
      isAccess (.final 0#28) = true ∧ isAccess (.init 0#28) = true ∧ isAccess (.rdStatus 0#32) = true :=
  ⟨abc_sound, rfl, by decide, abc_holds, rfl, by decide, by decide, by decide, by decide, by decide⟩

/-- The message named by the invariant is the one absorbed: `WR DATA_W` after "abc" appends its four bytes in order, a read
leaves it, INIT opens an empty one. -/
theorem test_message_after :
    messageAfterAccess [0x61#8, 0x62#8, 0x63#8] abc (.dataW 1#8 2#8 3#8 4#8) =
        [0x61#8, 0x62#8, 0x63#8, 1#8, 2#8, 3#8, 4#8] ∧
      messageAfterAccess [0x61#8] abc (.rdStatus 0#32) = [0x61#8] ∧ messageAfterAccess [0x61#8] abc (.init 0#28) = [] ∧
      messageAfterAccess [0x61#8] State.reset (.dataB 1#8 0#24) = [0x61#8] := by decide

theorem witness_ResetIsSound : ([.access 0x4000000001#39, .reset] : List Input).all isHostInput = true := by decide

theorem witness_DigestIsChunkingInvariant :
    isInit (decodeHT 0x40FFFFFFF1#39) = true ∧ isFinal (decodeHT 0x4000000002#39) = true ∧
      (∀ w ∈ ([0x4300000061#39, 0x0100000000#39, 0x4265646362#39] : List HtWord), mayStandInMessage (decodeHT w) = true) ∧
      (messageOf [0x4300000061#39, 0x0100000000#39, 0x4265646362#39]).length ≤ maxLen ∧
      ({ abc with inputs := [.access 0x40FFFFFFF1#39, .access 0x4300000061#39, .access 0x0100000000#39,
        .access 0x4265646362#39, .access 0x4000000002#39, .reset] } : State).inputs =
        .access 0x40FFFFFFF1#39 :: (([0x4300000061#39, 0x0100000000#39, 0x4265646362#39] : List HtWord).map Input.access ++
          .access 0x4000000002#39 :: [.reset]) ∧ abc.buf.wf = true ∧ abc.eseq = .idle := by
  refine ⟨by decide, by decide, fun w hw => ?_, by decide, rfl, by decide, rfl⟩
  simp only [List.mem_cons, List.not_mem_nil, or_false] at hw
  rcases hw with rfl | rfl | rfl <;> decide

theorem witness_HexIsLowercase :
    (9#4).toNat ≤ 9 ∧ 10 ≤ (10#4).toNat ∧ 0x39#8 ∈ hexChars iv ∧ 0x61#8 ∈ hexChars iv := by decide

theorem witness_ReservedControlRefused :
    controlWord (.step 63#6) = some 0xBF#8 ∧ isReservedControl (decodeRCW 0x02#8) = true ∧
      isReservedControl (decodeRCW 0xC0#8) = true := by decide

theorem witness_NonlinearFunctionsBitwise : 0 < 32 ∧ 31 < 32 := by decide

theorem witness_RotatingFormAgrees : 0 ≤ 16 ∧ 16 ≤ 16 := by decide

theorem witness_PutsHandsOverBytes :
    0x4300000065#39 ∈ expand (.putS [0x61#8, 0x62#8, 0x63#8, 0x64#8, 0x65#8]) ∧
      0x1700000000#39 ∈ expand .getDig ++ expand .getHex := by decide

theorem witness_HiddenStateUnobservable :
    Quiet abc ∧ SameToHost abc { abc with wk := ⟨1#32, 2#32, 3#32, 4#32⟩, buf := abc.buf.write 63 9#8 } ∧
      (abc.buf.write 63 9#8).wf = true := by
  refine ⟨⟨rfl, rfl⟩, ⟨rfl, rfl, rfl, rfl, rfl, rfl, rfl, rfl, rfl, fun _ => ?_⟩, by decide⟩
  decide

end Sys2Proof.Tests
end

