-- ==== Sys2Proof/Proofs/ByteOrder.lean ====
section
/-! PROOFS. The byte-order primitives of 00_scope.md R12 as numbers. -/

namespace Sys2Proof.Machine

/-- The number form of `BitVec.toNat_append`: a sum in place of shift and or. -/
theorem toNat_append_eq_add {m n : Nat} (hi : BitVec m) (lo : BitVec n) :
    (hi ++ lo).toNat = 2 ^ n * hi.toNat + lo.toNat := by
  rw [BitVec.toNat_append, ← Nat.shiftLeft_add_eq_or_of_lt lo.isLt, Nat.shiftLeft_eq, Nat.mul_comm]

theorem toNat_le32 (b0 b1 b2 b3 : Byte) :
    (le32 b0 b1 b2 b3).toNat = b0.toNat + 2 ^ 8 * b1.toNat + 2 ^ 16 * b2.toNat + 2 ^ 24 * b3.toNat := by
  rw [le32, toNat_append_eq_add, toNat_append_eq_add, toNat_append_eq_add]
  omega

theorem bytes32_eq_map_range (w : Word) :
    bytes32 w = (List.range 4).map fun j => w.extractLsb' (8 * j) 8 := rfl

theorem le64_eq_map_range (n : BitVec 64) :
    le64 n = (List.range 8).map fun j => n.extractLsb' (8 * j) 8 := rfl

/-- Byte `j` of a vector, low-order byte first, is its number's digit `j` in base 256. -/
theorem toNat_byte {m : Nat} (v : BitVec m) (j : Nat) :
    (v.extractLsb' (8 * j) 8).toNat = v.toNat / 2 ^ (8 * j) % 256 := by
  rw [BitVec.extractLsb'_toNat, Nat.shiftRight_eq_div_pow]

theorem map_toNat_bytes {m : Nat} (v : BitVec m) (k : Nat) :
    ((List.range k).map fun j => v.extractLsb' (8 * j) 8).map BitVec.toNat =
      (List.range k).map fun j => v.toNat / 2 ^ (8 * j) % 256 := by
  rw [List.map_map]
  exact List.map_congr_left fun j _ => toNat_byte v j

/-- Settles O8: `LE32` joins its bytes as digits in base 256; `LE64` and `bytes32` list the digits, low-order first. -/
theorem byteOrderPrimitives : Obligations.ByteOrderPrimitives := by
  refine ⟨toNat_le32, fun n => ?_, fun w => ?_⟩
  · rw [le64_eq_map_range, map_toNat_bytes]
  · rw [bytes32_eq_map_range, map_toNat_bytes]

end Sys2Proof.Machine
end

