-- ==== Sys2Proof/Proofs/FlagsAndPhase.lean ====
section
/-! PROOFS. What an instruction does to the driver, by its kind (INIT, FINAL, data write, reserved command, any other), and
from it the rules of the error flags (10_state.md R28) and of the phase (R27). -/

namespace Sys2Proof.Machine

open Sys2Proof.Safety

/-- What a completed instruction leaves, by its kind; the kinds exclude each other. One outside the four kinds that move the
driver (a NOP, a read, an ignored write, a micro-operation) changes at most `ST`, `WK`, `MW` and the value returned. -/
theorem exec_cases {i : Instr} {s t : State} (h : exec i s = .next t) :
    (isInit i = true ∧ isFinal i = false ∧ isData i = false ∧ isReservedCmd i = false ∧ t = noResponse (initOp s)) ∨
      (isInit i = false ∧ isFinal i = true ∧ isData i = false ∧ isReservedCmd i = false ∧
        t = noResponse (finalOp s)) ∨
      (isInit i = false ∧ isFinal i = false ∧ isData i = true ∧ isReservedCmd i = false ∧
        t = noResponse (dataWrite (messageBytes i) s)) ∨
      (isInit i = false ∧ isFinal i = false ∧ isData i = false ∧ isReservedCmd i = true ∧
        t = noResponse (raiseError .cmd s)) ∨
      (isInit i = false ∧ isFinal i = false ∧ isData i = false ∧ isReservedCmd i = false ∧
        ∃ st wk mw rdata, t = { s with st := st, wk := wk, mw := mw, rdata := rdata }) := by
  cases i with
  | init => cases h; exact .inl ⟨rfl, rfl, rfl, rfl, rfl⟩
  | final => cases h; exact .inr (.inl ⟨rfl, rfl, rfl, rfl, rfl⟩)
  | dataW | dataB => cases h; exact .inr (.inr (.inl ⟨rfl, rfl, rfl, rfl, rfl⟩))
  | cmdRsvd3 | cmdRsvd4to7 | cmdRsvd8toF => cases h; exact .inr (.inr (.inr (.inl ⟨rfl, rfl, rfl, rfl, rfl⟩)))
  | _ => cases h <;> exact .inr (.inr (.inr (.inr ⟨rfl, rfl, rfl, rfl, _, _, _, _, rfl⟩)))

/-! ### The flags and the phase after FINAL and after a data write -/

/-- FINAL sets `ERR_SEQ` outside ABSORB and no other flag; in ABSORB it goes to DONE. -/
theorem finalOp_driver (s : State) :
    (finalOp s).errLen = s.errLen ∧ (finalOp s).errCmd = s.errCmd ∧
      ((s.phase ≠ .absorb ∧ (finalOp s).errSeq = true ∧ (finalOp s).phase = s.phase) ∨
        (s.phase = .absorb ∧ (finalOp s).errSeq = s.errSeq ∧ (finalOp s).phase = .done)) := by
  obtain ⟨-, -, hLen, hSeq, hCmd, -, -, -⟩ := padAndCompress_frame s
  rcases finalOp_cases s with ⟨hp, e⟩ | ⟨hp, e⟩
  · simp [e, hp]
  · simp [e, hp, hLen, hSeq, hCmd]

/-- A data write sets `ERR_SEQ` outside ABSORB and `ERR_LEN` on a length overflow, which goes to FAILED; accepted, it leaves
the flags and the phase. -/
theorem dataWrite_driver (bs : List Byte) (s : State) :
    (dataWrite bs s).errCmd = s.errCmd ∧
      ((s.phase ≠ .absorb ∧ (dataWrite bs s).errLen = s.errLen ∧ (dataWrite bs s).errSeq = true ∧
          (dataWrite bs s).phase = s.phase) ∨
        (s.phase = .absorb ∧ maxLen < s.cnt.toNat + bs.length ∧ (dataWrite bs s).errLen = true ∧
          (dataWrite bs s).errSeq = s.errSeq ∧ (dataWrite bs s).phase = .failed) ∨
        (s.phase = .absorb ∧ ¬ maxLen < s.cnt.toNat + bs.length ∧ (dataWrite bs s).errLen = s.errLen ∧
          (dataWrite bs s).errSeq = s.errSeq ∧ (dataWrite bs s).phase = s.phase)) := by
  obtain ⟨hPhase, hLen, hSeq, hCmd, -, -⟩ := absorbBytes_frame bs s
  rcases dataWrite_cases bs s with ⟨hp, e⟩ | ⟨hp, hc, e⟩ | ⟨hp, hc, e⟩
  · simp [e, hp]
  · simp [e, hp, hc]
  · simp [e, hp, hc, hPhase, hLen, hSeq, hCmd]

/-! ### The flags (10_state.md R28) -/

theorem exec_flags {i : Instr} {s t : State} (h : exec i s = .next t) (hInit : isInit i = false) :
    (t.errLen = true ↔ s.errLen = true ∨
      (isData i = true ∧ s.phase = .absorb ∧ maxLen < s.cnt.toNat + (messageBytes i).length)) ∧
    (t.errSeq = true ↔ s.errSeq = true ∨ ((isData i = true ∨ isFinal i = true) ∧ s.phase ≠ .absorb)) ∧
    (t.errCmd = true ↔ s.errCmd = true ∨ isReservedCmd i = true) := by
  rcases exec_cases h with ⟨hi, -⟩ | ⟨-, hf, hd, hr, rfl⟩ | ⟨-, hf, hd, hr, rfl⟩ | ⟨-, hf, hd, hr, rfl⟩ |
    ⟨-, hf, hd, hr, _, _, _, _, rfl⟩
  · simp [hInit] at hi
  · obtain ⟨hLen, hCmd, ⟨hp, hSeq, -⟩ | ⟨hp, hSeq, -⟩⟩ := finalOp_driver s <;> simp [hf, hd, hr, hp, hLen, hCmd, hSeq]
  · obtain ⟨hCmd, ⟨hp, hLen, hSeq, -⟩ | ⟨hp, hc, hLen, hSeq, -⟩ | ⟨hp, hc, hLen, hSeq, -⟩⟩ :=
      dataWrite_driver (messageBytes i) s
    · simp [hf, hd, hr, hp, hLen, hCmd, hSeq]
    · simp [hf, hd, hr, hp, hc, hLen, hCmd, hSeq]
    · simp [hf, hd, hr, hp, hc, hLen, hCmd, hSeq]
  · simp [hf, hd, hr]
  · simp [hf, hd, hr]

theorem exec_init_clears_flags {i : Instr} {s t : State} (h : exec i s = .next t) (hInit : isInit i = true) :
    t.errLen = false ∧ t.errSeq = false ∧ t.errCmd = false := by
  rcases exec_cases h with ⟨-, -, -, -, rfl⟩ | ⟨hi, -⟩ | ⟨hi, -⟩ | ⟨hi, -⟩ | ⟨hi, -⟩
  · simp
  all_goals simp [hInit] at hi

/-- A completed step with reset at the head of the inputs ends in the state of reset. -/
theorem eq_resetEvent_of_step {s t : State} {rest : List Input} (hr : s.inputs = .reset :: rest)
    (h : step s = .next t) : t = resetEvent rest := by
  rw [step_reset hr] at h
  exact (Host.Outcome.next.inj h).symm

/-- Settles O45: the instruction's kind decides which flag it can set; only INIT and reset clear. -/
theorem flagsAreSticky : Obligations.FlagsAreSticky := by
  refine ⟨fun _ _ _ => exec_flags, fun _ _ _ => exec_init_clears_flags, fun s t rest hr h => ?_⟩
  rw [eq_resetEvent_of_step hr h]
  exact ⟨rfl, rfl, rfl⟩

/-! ### The phase (10_state.md R27) -/

/-- Every way the phase can go: INIT opens a message, FINAL in ABSORB publishes it, a length overflow fails, and nothing else
moves the phase. -/
theorem exec_phase_cases {i : Instr} {s t : State} (h : exec i s = .next t) :
    (isInit i = true ∧ isFinal i = false ∧ isData i = false ∧ t.phase = .absorb) ∨
      (isInit i = false ∧ isFinal i = true ∧ isData i = false ∧ s.phase = .absorb ∧ t.phase = .done) ∨
      (isInit i = false ∧ isFinal i = false ∧ isData i = true ∧ s.phase = .absorb ∧
        maxLen < s.cnt.toNat + (messageBytes i).length ∧ t.phase = .failed) ∨
      (isInit i = false ∧ ¬(isFinal i = true ∧ s.phase = .absorb) ∧
        ¬(isData i = true ∧ s.phase = .absorb ∧ maxLen < s.cnt.toNat + (messageBytes i).length) ∧
        t.phase = s.phase) := by
  rcases exec_cases h with ⟨hi, hf, hd, -, rfl⟩ | ⟨hi, hf, hd, -, rfl⟩ | ⟨hi, hf, hd, -, rfl⟩ | ⟨hi, hf, hd, -, rfl⟩ |
    ⟨hi, hf, hd, -, _, _, _, _, rfl⟩
  · exact .inl ⟨hi, hf, hd, rfl⟩
  · obtain ⟨-, -, ⟨hp, -, e⟩ | ⟨hp, -, e⟩⟩ := finalOp_driver s <;> simp [hi, hf, hd, hp, e]
  · obtain ⟨-, ⟨hp, -, -, e⟩ | ⟨hp, hc, -, -, e⟩ | ⟨hp, hc, -, -, e⟩⟩ := dataWrite_driver (messageBytes i) s
    · simp [hi, hf, hd, hp, e]
    · simp [hi, hf, hd, hp, hc, e]
    · simp [hi, hf, hd, hp, hc, e]
  · simp [hi, hf, hd]
  · simp [hi, hf, hd]

/-- Settles O47: the codes stand in `phaseCode`, and each clause is read off the four ways the phase can go. -/
theorem phaseTransitions : Obligations.PhaseTransitions := by
  refine ⟨⟨rfl, rfl, rfl, rfl⟩, fun i s t h => ?_, fun s t rest hr h => ?_⟩
  · rcases exec_phase_cases h with ⟨hi, hf, hd, ht⟩ | ⟨hi, hf, hd, hp, ht⟩ | ⟨hi, hf, hd, hp, hc, ht⟩ | ⟨hi, hf, hd, ht⟩
    · simp [hi, hf, hd, ht]
    · simp [hi, hf, hd, hp, ht]
    · simp [hi, hf, hd, hp, hc, ht]
    · exact ⟨by simp [hi], fun h1 h2 => absurd ⟨h1, h2⟩ hf, fun h1 h2 h3 => absurd ⟨h1, h2, h3⟩ hd,
        fun hne => absurd ht hne⟩
  · rw [eq_resetEvent_of_step hr h]
    rfl

end Sys2Proof.Machine
end

