-- ==== Sys2Proof/Proofs/Encoding.lean ====
section
/-! PROOFS. The bits of an encoding that have no effect (30_encoding.md R72) and the control words that have no meaning
(R82). -/

namespace Sys2Proof.Machine

open Sys2Proof.Safety

/-! ### The data of a read (30_encoding.md R72) -/

/-- The branch of the decoder depends on the word index alone, and in each branch the two meanings are equal by their
definitions. -/
theorem exec_decodeRead_wdata (x : Widx) (d d' : Word) (s : State) :
    exec (decodeRead x d) s = exec (decodeRead x d') s := by
  simp only [decodeRead, apply_ite (exec · s)]
  rfl

/-- Settles O6: with `WE = 0` a transaction decodes as a read of its word index, and a read does not use its data. -/
theorem readIgnoresData : Obligations.ReadIgnoresData := by
  intro x d s
  have hRead : ∀ w, decodeHT (htWord 0#1 x w) = decodeRead x w := fun w => by rw [decodeHT_htWord]; rfl
  rw [hRead, hRead, exec_decodeRead_wdata]

/-! ### The reserved control words (30_encoding.md R82) -/

/-- The decoder reads a reserved row exactly from the words that R79 gives to no micro-operation. -/
theorem isReservedControl_decodeRCW (w : RcwWord) :
    isReservedControl (decodeRCW w) = true ↔
      w.toNat ≠ 0x00 ∧ w.toNat ≠ 0x01 ∧ ¬(0x80 ≤ w.toNat ∧ w.toNat ≤ 0xBF) := by
  fun_cases decodeRCW w <;> simp only [isReservedControl, Bool.false_eq_true, true_iff, false_iff] <;> omega

/-- A word the sequencer issues is UNPACK's, ACCUM's or that of a STEP. -/
theorem controlWord_toNat {e : Eseq} {w : RcwWord} (h : controlWord e = some w) :
    w.toNat = 0x00 ∨ w.toNat = 0x01 ∨ (0x80 ≤ w.toNat ∧ w.toNat ≤ 0xBF) := by
  cases e with
  | idle => cases h
  | unpack => cases h; exact .inl rfl
  | accum => cases h; exact .inr (.inl rfl)
  | step i =>
    cases h
    have hw : (0b10#2 ++ i).toNat = 0x80 + i.toNat := toNat_append_eq_add 0b10#2 i
    have hi := i.isLt
    omega

/-- Settles O35: each reserved row's meaning is the refusal, and the words the sequencer issues lie outside the reserved
ranges. -/
theorem reservedControlRefused : Obligations.ReservedControlRefused := by
  refine ⟨fun w s => ⟨rfl, rfl, rfl, rfl, rfl, rfl, rfl⟩, isReservedControl_decodeRCW, fun e w h => ?_⟩
  have hIssued := controlWord_toNat h
  rw [← Bool.not_eq_true, isReservedControl_decodeRCW]
  omega

end Sys2Proof.Machine
end

