-- ==== Sys2Proof/Proofs/Padding.lean ====
section
/-! PROOFS. The padded tail (40_padding.md R101, R102): its length, and the byte at each index of its four parts. -/

namespace Sys2Proof.Machine

/-! ### The length field -/

@[simp] theorem length_le64 (n : BitVec 64) : (le64 n).length = 8 := rfl

theorem getElem?_le64 (n : BitVec 64) {j : Nat} (h : j < 8) : (le64 n)[j]? = some (n.extractLsb' (8 * j) 8) := by
  simp [le64_eq_map_range, h]

/-! ### The length -/

/-- The padded length is a whole number of blocks with room for the tail, the mark and the length field; one block less
would not have the room. -/
theorem paddedLength_bounds {t : Nat} (h : t < 64) :
    paddedLength t % 64 = 0 ∧ t + 9 ≤ paddedLength t ∧ paddedLength t < t + 9 + 64 := by
  rw [paddedLength]
  split <;> omega

theorem paddedLength_least {t m : Nat} (h : t < 64) (hm : m % 64 = 0) (hRoom : t + 9 ≤ m) : paddedLength t ≤ m := by
  obtain ⟨hBlocks, -, hLt⟩ := paddedLength_bounds h
  omega

/-- The count of zero bytes that the spec derives in 40_padding.md R102. -/
theorem paddedLength_zeros {t : Nat} (h : t < 64) : paddedLength t - 9 - t = (119 - t) % 64 := by
  obtain ⟨hBlocks, hRoom, hLt⟩ := paddedLength_bounds h
  omega

theorem length_paddedTail {tail : List Byte} (bits : BitVec 64) (h : tail.length < 64) :
    (paddedTail tail bits).length = paddedLength tail.length := by
  obtain ⟨-, hRoom, -⟩ := paddedLength_bounds h
  simp only [paddedTail, List.length_append, List.length_cons, List.length_nil, List.length_replicate, length_le64]
  omega

/-! ### The content, part by part -/

/-- The padded tail, nested to the right: a byte is found by passing over the parts before it. -/
theorem paddedTail_eq (tail : List Byte) (bits : BitVec 64) :
    paddedTail tail bits =
      tail ++ 0x80#8 :: (List.replicate (paddedLength tail.length - 9 - tail.length) 0#8 ++ le64 bits) := by
  simp [paddedTail]

theorem getElem?_paddedTail_tail (tail : List Byte) (bits : BitVec 64) {k : Nat} (h : k < tail.length) :
    (paddedTail tail bits)[k]? = tail[k]? := by
  rw [paddedTail_eq, List.getElem?_append_left h]

theorem getElem?_paddedTail_mark (tail : List Byte) (bits : BitVec 64) :
    (paddedTail tail bits)[tail.length]? = some 0x80#8 := by
  rw [paddedTail_eq, List.getElem?_append_right le_rfl, Nat.sub_self, List.getElem?_cons_zero]

/-- The bytes behind the mark are the zeros and then the length field. -/
theorem getElem?_paddedTail_behind_mark (tail : List Byte) (bits : BitVec 64) (i : Nat) :
    (paddedTail tail bits)[tail.length + 1 + i]? =
      (List.replicate (paddedLength tail.length - 9 - tail.length) 0#8 ++ le64 bits)[i]? := by
  rw [paddedTail_eq, List.getElem?_append_right (by omega),
    show tail.length + 1 + i - tail.length = i + 1 by omega, List.getElem?_cons_succ]

theorem getElem?_paddedTail_zero (tail : List Byte) (bits : BitVec 64) {k : Nat} (hk : tail.length < k)
    (hz : k < paddedLength tail.length - 8) : (paddedTail tail bits)[k]? = some 0#8 := by
  obtain ⟨i, rfl⟩ := Nat.exists_eq_add_of_le hk
  have hi : i < paddedLength tail.length - 9 - tail.length := by omega
  rw [getElem?_paddedTail_behind_mark, List.getElem?_append_left (by simpa using hi), List.getElem?_replicate_of_lt hi]

theorem getElem?_paddedTail_lengthField {tail : List Byte} (bits : BitVec 64) (h : tail.length < 64) {j : Nat}
    (hj : j < 8) : (paddedTail tail bits)[paddedLength tail.length - 8 + j]? = some (bits.extractLsb' (8 * j) 8) := by
  obtain ⟨-, hRoom, -⟩ := paddedLength_bounds h
  have hIndex : paddedLength tail.length - 8 + j =
      tail.length + 1 + (paddedLength tail.length - 9 - tail.length + j) := by omega
  rw [hIndex, getElem?_paddedTail_behind_mark, List.getElem?_append_right (by simp), List.length_replicate,
    Nat.add_sub_cancel_left, getElem?_le64 bits hj]

/-- Settles O43: the length by its bounds, the content part by part. -/
theorem paddedTailContent : Obligations.PaddedTailContent := by
  intro tail bits h
  simp only [length_paddedTail bits h]
  obtain ⟨hBlocks, hRoom, -⟩ := paddedLength_bounds h
  exact ⟨rfl, ⟨hBlocks, hRoom, fun _ => paddedLength_least h⟩, fun _ => getElem?_paddedTail_tail tail bits,
    getElem?_paddedTail_mark tail bits, fun _ => getElem?_paddedTail_zero tail bits,
    fun _ => getElem?_paddedTail_lengthField bits h, paddedLength_zeros h⟩

end Sys2Proof.Machine
end

