-- ==== Sys2Proof/Proofs/Compression.lean ====
section
/-! PROOFS. The round engine's functions and micro-operations (41_compression.md R121 to R126, R137), and which instructions
write `ST` (R139, 10_state.md R21). -/

namespace Sys2Proof.Machine

open Sys2Proof.Safety

/-! ### The nonlinear functions, bit by bit -/

/-- `F` selects: the bit of `y` where `x` is 1, else the bit of `z`. -/
theorem getLsbD_funF (x y z : Word) {k : Nat} (hk : k < 32) :
    (funF x y z).getLsbD k = if x.getLsbD k then y.getLsbD k else z.getLsbD k := by
  rw [funF, BitVec.getLsbD_or, BitVec.getLsbD_and, BitVec.getLsbD_and, BitVec.getLsbD_not, decide_eq_true hk]
  cases x.getLsbD k <;> simp

/-- `G` selects: the bit of `x` where `z` is 1, else the bit of `y`. -/
theorem getLsbD_funG (x y z : Word) {k : Nat} (hk : k < 32) :
    (funG x y z).getLsbD k = if z.getLsbD k then x.getLsbD k else y.getLsbD k := by
  rw [funG, BitVec.getLsbD_or, BitVec.getLsbD_and, BitVec.getLsbD_and, BitVec.getLsbD_not, decide_eq_true hk]
  cases z.getLsbD k <;> simp

theorem getLsbD_funH (x y z : Word) (k : Nat) :
    (funH x y z).getLsbD k = (x.getLsbD k ^^ y.getLsbD k ^^ z.getLsbD k) := by
  rw [funH, BitVec.getLsbD_xor, BitVec.getLsbD_xor]

theorem getLsbD_funI (x y z : Word) {k : Nat} (hk : k < 32) :
    (funI x y z).getLsbD k = (y.getLsbD k ^^ (x.getLsbD k || !z.getLsbD k)) := by
  rw [funI, BitVec.getLsbD_xor, BitVec.getLsbD_or, BitVec.getLsbD_not, decide_eq_true hk, Bool.true_and]

/-- Settles O36: one lemma for each function's bits; the examples are computed. -/
theorem nonlinearFunctionsBitwise : Obligations.NonlinearFunctionsBitwise :=
  ⟨fun x y z k hk => ⟨getLsbD_funF x y z hk, getLsbD_funG x y z hk, getLsbD_funH x y z k, getLsbD_funI x y z hk⟩,
    by decide, by decide, by decide, by decide⟩

/-! ### The writers of `ST` -/

/-- Absorbed bytes leave `ST` and the count of compressions, or a compression has completed. -/
theorem absorbBytes_st_or_compresses (bs : List Byte) (s : State) :
    ((absorbBytes bs s).st = s.st ∧ (absorbBytes bs s).compressions = s.compressions) ∨
      s.compressions < (absorbBytes bs s).compressions := by
  induction bs generalizing s with
  | nil => exact .inl ⟨rfl, rfl⟩
  | cons b bs ih =>
    have hRest := ih (absorbByte s b)
    rw [absorbBytes_cons]
    rcases absorbByte_cases s b with ⟨-, e⟩ | ⟨-, e⟩
    · have hCount : (absorbByte s b).compressions = s.compressions + 1 := by rw [e, compress_compressions, withByte]
      omega
    · have hSt : (absorbByte s b).st = s.st := by rw [e, withByte]
      have hCount : (absorbByte s b).compressions = s.compressions := by rw [e, withByte]
      rwa [hSt, hCount] at hRest

/-- A data write that changes `ST` was met in ABSORB and completed a compression. -/
theorem dataWrite_compresses {bs : List Byte} {s : State} (hst : (dataWrite bs s).st ≠ s.st) :
    s.phase = .absorb ∧ s.compressions < (dataWrite bs s).compressions := by
  rcases dataWrite_cases bs s with ⟨-, e⟩ | ⟨-, -, e⟩ | ⟨hp, -, e⟩
  · simp [e] at hst
  · simp [e] at hst
  · rw [e] at hst ⊢
    exact ⟨hp, (absorbBytes_st_or_compresses bs s).resolve_left fun hSame => hst hSame.1⟩

theorem padAndCompress_compresses (s : State) : s.compressions < (padAndCompress s).compressions := by
  rcases padAndCompress_cases s with ⟨-, e⟩ | ⟨-, e⟩ <;> simp [e, padLast_eq, withPadMark]

/-- A FINAL that changes `ST` was met in ABSORB and completed a compression. -/
theorem finalOp_compresses {s : State} (hst : (finalOp s).st ≠ s.st) :
    s.phase = .absorb ∧ s.compressions < (finalOp s).compressions := by
  rcases finalOp_cases s with ⟨-, e⟩ | ⟨hp, e⟩
  · simp [e] at hst
  · rw [e]
    exact ⟨hp, padAndCompress_compresses s⟩

/-- An instruction that is neither INIT, FINAL, a data write nor ACCUM leaves `ST`. -/
theorem exec_st {i : Instr} {s t : State} (h : exec i s = .next t) (hInit : isInit i = false)
    (hFinal : isFinal i = false) (hData : isData i = false) (hAccum : i ≠ .accum) : t.st = s.st := by
  cases i with
  | init => cases hInit
  | final => cases hFinal
  | dataW | dataB => cases hData
  | accum => exact absurd rfl hAccum
  | _ => cases h <;> rfl

theorem exec_changes_st {i : Instr} {s t : State} (h : exec i s = .next t) (hst : t.st ≠ s.st) :
    isInit i = true ∨ i = .accum ∨
      ((isData i = true ∨ isFinal i = true) ∧ s.phase = .absorb ∧ s.compressions < t.compressions) := by
  rcases exec_cases h with ⟨hi, -⟩ | ⟨-, hf, -, -, rfl⟩ | ⟨-, -, hd, -, rfl⟩ | ⟨-, -, -, -, rfl⟩ |
    ⟨hi, hf, hd, -⟩
  · exact .inl hi
  · exact .inr (.inr ⟨.inr hf, finalOp_compresses hst⟩)
  · exact .inr (.inr ⟨.inl hd, dataWrite_compresses hst⟩)
  · simp at hst
  · exact .inr (.inl (by_contra fun hAccum => hst (exec_st h hi hf hd hAccum)))

/-- Settles O42: by the instruction's kind, `ST` moves only with INIT, with ACCUM or with a completed compression; STEP and
UNPACK are updates of the fields named. -/
theorem writersOfChainingState : Obligations.WritersOfChainingState := by
  refine ⟨fun _ _ _ => exec_changes_st, fun n s t h => ?_, fun s t h => ?_⟩
  · rcases h with h | h | h | h <;> cases h <;> rfl
  · cases h
    rfl

/-! ### UNPACK and ACCUM -/

/-- A mask of all ones gives an encoding one control word. -/
theorem controlEncodedAs_of_toNat_iff {bits : Nat} {p : Instr → Prop}
    (h : ∀ w : RcwWord, p (decodeRCW w) ↔ w.toNat = bits) : ControlEncodedAs bits 0xFF p := by
  intro w
  rw [Nat.and_two_pow_sub_one_eq_mod w.toNat 8, Nat.mod_eq_of_lt w.isLt, h]

theorem decodeRCW_eq_unpack_iff (w : RcwWord) : decodeRCW w = .unpack ↔ w.toNat = 0x00 := by
  fun_cases decodeRCW w <;> simp <;> omega

theorem decodeRCW_eq_accum_iff (w : RcwWord) : decodeRCW w = .accum ↔ w.toNat = 0x01 := by
  fun_cases decodeRCW w <;> simp <;> omega

/-- Settles O32: `MW[j]` is the little-endian word of `BUF` at `4j`, as the number `toNat_le32` gives. -/
theorem unpackLoadsWords : Obligations.UnpackLoadsWords := by
  refine ⟨controlEncodedAs_of_toNat_iff decodeRCW_eq_unpack_iff,
    fun s => ⟨Vector.ofFn fun j => s.buf.word j, rfl, fun j => ?_⟩⟩
  rw [Fin.getElem_fin, Vector.getElem_ofFn, Memory.word, toNat_le32]

/-- Settles O33: each register of the sum is one addition of 32-bit words. -/
theorem accumAddsLanes : Obligations.AccumAddsLanes :=
  ⟨controlEncodedAs_of_toNat_iff decodeRCW_eq_accum_iff,
    fun s => ⟨s.st.add s.wk, rfl, BitVec.toNat_add .., BitVec.toNat_add .., BitVec.toNat_add .., BitVec.toNat_add ..⟩⟩

end Sys2Proof.Machine
end

