-- ==== Sys2Proof/Proofs/RowEncodings.lean ====
section
/-! PROOFS. How a row's encoding, a word and a mask (30_encoding.md R85), follows from the ranges by which the decoder tells
the rows apart. -/

namespace Sys2Proof.Machine

open Sys2Proof.Safety

/-! ### Masks over the fields of a number -/

/-- A mask acts on the low `k` bits and on the bits above them apart. -/
theorem add_and_add {k l m : Nat} (h M : Nat) (hl : l < 2 ^ k) (hm : m < 2 ^ k) :
    (2 ^ k * h + l) &&& (2 ^ k * M + m) = 2 ^ k * (h &&& M) + (l &&& m) := by
  have hlm : l &&& m < 2 ^ k := Nat.and_lt_two_pow l hm
  refine Nat.eq_of_testBit_eq fun j => ?_
  rw [Nat.testBit_and, Nat.testBit_two_pow_mul_add _ hl, Nat.testBit_two_pow_mul_add _ hm,
    Nat.testBit_two_pow_mul_add _ hlm]
  split <;> simp

/-- The mask of the bits from `k` up to `n` keeps the low `n` bits and of them clears the low `k`. -/
theorem and_bitRange {k n : Nat} (hk : k ≤ n) (h : Nat) :
    h &&& 2 ^ k * (2 ^ (n - k) - 1) = 2 ^ k * (h % 2 ^ n / 2 ^ k) := by
  have hPos : 0 < 2 ^ k := by positivity
  have hSplit := add_and_add (h / 2 ^ k) (2 ^ (n - k) - 1) (Nat.mod_lt h hPos) hPos
  rw [Nat.div_add_mod, Nat.and_two_pow_sub_one_eq_mod, Nat.and_zero, ← Nat.mod_mul_right_div_self, ← pow_add,
    Nat.add_sub_cancel' hk] at hSplit
  exact hSplit

/-- Clearing the low `k` bits leaves a greater power of two as it is. -/
theorem two_pow_mul_add_div {k n : Nat} (hk : k ≤ n) (h : Nat) :
    2 ^ k * ((2 ^ n + h) / 2 ^ k) = 2 ^ n + 2 ^ k * (h / 2 ^ k) := by
  have hPow : 2 ^ n = 2 ^ k * 2 ^ (n - k) := by rw [← pow_add, Nat.add_sub_cancel' hk]
  rw [hPow, Nat.mul_add_div (by positivity), Nat.mul_add]

/-! ### A row by its fields -/

/-- A transaction as a number: the direction and the word index are the bits above the data. -/
theorem toNat_htWord (we : BitVec 1) (x : Widx) (d : Word) :
    (htWord we x d).toNat = 2 ^ 32 * (2 ^ 6 * we.toNat + x.toNat) + d.toNat := by
  rw [htWord, toNat_append_eq_add, toNat_append_eq_add]

/-- A row's encoding, given field by field: `sel` under the mask `M` for the direction and the word index, `b` under the mask
`m` for the data. -/
theorem encodedAs_of_fields {p : Instr → Prop} {sel M b m : Nat} (hb : b < 2 ^ 32) (hm : m < 2 ^ 32)
    (hRead : ∀ x d, p (decodeRead x d) ↔ x.toNat &&& M = sel ∧ d.toNat &&& m = b)
    (hWrite : ∀ x d, p (decodeWrite x d) ↔ (2 ^ 6 + x.toNat) &&& M = sel ∧ d.toNat &&& m = b) :
    EncodedAs (2 ^ 32 * sel + b) (2 ^ 32 * M + m) p := by
  intro v
  obtain ⟨we, x, d, rfl⟩ : ∃ we x d, htWord we x d = v := ⟨_, _, _, htWord_fields v⟩
  have hData : d.toNat &&& m < 2 ^ 32 := Nat.and_lt_two_pow _ hm
  have hFields (h : Nat) : 2 ^ 32 * h + (d.toNat &&& m) = 2 ^ 32 * sel + b ↔ h = sel ∧ d.toNat &&& m = b := by omega
  rw [toNat_htWord, add_and_add _ _ d.isLt hm, hFields, decodeHT_htWord]
  obtain rfl | rfl : we = 0#1 ∨ we = 1#1 := by revert we; decide
  · simpa using (hRead x d).symm
  · simpa using (hWrite x d).symm

/-! ### The three kinds of transaction the decoder tells apart -/

/-- A CMD write (30_encoding.md R74). -/
def isCmdWrite (i : Instr) : Bool :=
  match i with
  | .nop _ | .init _ | .final _ | .cmdRsvd3 _ | .cmdRsvd4to7 _ _ | .cmdRsvd8toF _ _ => true
  | _ => false

theorem isCmdWrite_decodeCmd (d : Word) : isCmdWrite (decodeCmd d) = true := by
  fun_cases decodeCmd d <;> rfl

theorem isCmdWrite_decodeRead (x : Widx) (d : Word) : isCmdWrite (decodeRead x d) = false := by
  fun_cases decodeRead x d <;> rfl

theorem isCmdWrite_decodeWrite (x : Widx) (d : Word) : isCmdWrite (decodeWrite x d) = true ↔ x.toNat = 0 := by
  fun_cases decodeWrite x d with
  | case1 _ hx => simpa only [isCmdWrite_decodeCmd, true_iff] using hx
  | _ => simp [isCmdWrite]; omega

/-- A CMD write is no instruction of another kind. -/
@[simp] theorem decodeCmd_ne {i : Instr} (d : Word) (h : ¬isCmdWrite i = true) : decodeCmd d ≠ i := by
  rintro rfl
  exact h (isCmdWrite_decodeCmd d)

theorem isRead_decodeRead (x : Widx) (d : Word) : isRead (decodeRead x d) = true := by
  fun_cases decodeRead x d <;> rfl

theorem isRead_decodeWrite (x : Widx) (d : Word) : isRead (decodeWrite x d) = false := by
  fun_cases decodeWrite x d with
  | case1 => fun_cases decodeCmd d <;> rfl
  | _ => rfl

/-! ### The rows of each kind

A row's proof is the case split of its decoder, `hRow`. The defaults close the rest for every row: a row has at most the
indices its field has room for, and its instructions are all of one kind. -/

/-- A row of reads: the `2 ^ k` word indices from `first` on. -/
theorem encodedAs_read {p : Instr → Prop} (first : Widx) (k : Nat)
    (hRow : ∀ x d, p (decodeRead x d) ↔ 2 ^ k * (x.toNat / 2 ^ k) = first.toNat)
    (hk : k ≤ 6 := by decide)
    (hp : ∀ i, p i → isRead i = true := by simp +contextual [Sys2Proof.Safety.isRead]) :
    EncodedAs (2 ^ 32 * first.toNat) (2 ^ 32 * (2 ^ k * (2 ^ (7 - k) - 1))) p := by
  refine encodedAs_of_fields (b := 0) (m := 0) (by decide) (by decide) (fun x d => ?_) fun x d => ?_
  · rw [hRow, and_bitRange (by omega), Nat.mod_eq_of_lt (by omega), Nat.and_zero, and_iff_left rfl]
  · have hNot : ¬p (decodeWrite x d) := fun hi => by simpa [isRead_decodeWrite] using hp _ hi
    have hFirst := first.isLt
    rw [and_bitRange (by omega), Nat.mod_eq_of_lt (by omega), two_pow_mul_add_div hk]
    simp only [hNot, false_iff]
    omega

/-- A row of writes: the `2 ^ k` word indices from `first` on. -/
theorem encodedAs_write {p : Instr → Prop} (first : Widx) (k : Nat)
    (hRow : ∀ x d, p (decodeWrite x d) ↔ 2 ^ k * (x.toNat / 2 ^ k) = first.toNat)
    (hk : k ≤ 6 := by decide)
    (hp : ∀ i, p i → isRead i = false := by simp +contextual [Sys2Proof.Safety.isRead]) :
    EncodedAs (2 ^ 32 * (2 ^ 6 + first.toNat)) (2 ^ 32 * (2 ^ k * (2 ^ (7 - k) - 1))) p := by
  refine encodedAs_of_fields (b := 0) (m := 0) (by decide) (by decide) (fun x d => ?_) fun x d => ?_
  · have hNot : ¬p (decodeRead x d) := fun hi => by simpa [isRead_decodeRead] using hp _ hi
    have hLe : 2 ^ k * (x.toNat / 2 ^ k) ≤ x.toNat := Nat.mul_div_le ..
    rw [and_bitRange (by omega), Nat.mod_eq_of_lt (by omega)]
    simp only [hNot, false_iff]
    omega
  · rw [hRow, and_bitRange (by omega), Nat.mod_eq_of_lt (by omega), two_pow_mul_add_div hk, Nat.add_right_inj,
      Nat.and_zero, and_iff_left rfl]

/-- A row of CMD writes: the `2 ^ k` command codes from `first` on. -/
theorem encodedAs_cmd {p : Instr → Prop} (first : BitVec 4) (k : Nat)
    (hRow : ∀ d, p (decodeCmd d) ↔ 2 ^ k * (d.toNat % 2 ^ 4 / 2 ^ k) = first.toNat)
    (hk : k ≤ 4 := by decide)
    (hp : ∀ i, p i → isCmdWrite i = true := by simp +contextual [Sys2Proof.Machine.isCmdWrite]) :
    EncodedAs (2 ^ 32 * 2 ^ 6 + first.toNat) (2 ^ 32 * (2 ^ 7 - 1) + 2 ^ k * (2 ^ (4 - k) - 1)) p := by
  have hMask : 2 ^ k * (2 ^ (4 - k) - 1) < 2 ^ 32 := by interval_cases k <;> decide
  refine encodedAs_of_fields (by omega) hMask (fun x d => ?_) fun x d => ?_
  · have hNot : ¬p (decodeRead x d) := fun hi => by simpa [isCmdWrite_decodeRead] using hp _ hi
    rw [Nat.and_two_pow_sub_one_eq_mod]
    simp only [hNot, false_iff]
    omega
  · have hSelect : (2 ^ 6 + x.toNat) % 2 ^ 7 = 2 ^ 6 ↔ x = 0#6 := by bv_omega
    have hCmd (hi : p (decodeWrite x d)) : x = 0#6 :=
      BitVec.eq_of_toNat_eq ((isCmdWrite_decodeWrite x d).1 (hp _ hi))
    rw [Nat.and_two_pow_sub_one_eq_mod, and_bitRange hk, ← hRow, hSelect]
    refine ⟨fun hi => ?_, ?_⟩
    · obtain rfl := hCmd hi
      exact ⟨rfl, hi⟩
    · rintro ⟨rfl, hi⟩
      exact hi

end Sys2Proof.Machine
end

