-- ==== Sys2Proof/Proofs/Driver.lean ====
section
/-! PROOFS. The driver's commands and data writes (42_driver.md R162 to R169). The meaning of a command is its update of the
state by definition; its encoding goes by the decoder's ranges of command codes. -/

namespace Sys2Proof.Machine

open Sys2Proof.Safety

/-! ### Commands

`decodeCmd` names the command code by a `let`, which `simp +zetaDelta at *` reads as `WDATA mod 16`. -/

/-- Settles O14: NOP is the row of command code 0, and its meaning is the answer alone. -/
theorem nopChangesNothing : Obligations.NopChangesNothing := by
  refine ⟨encodedAs_cmd 0#4 0 fun d => ?_, fun ign s => rfl⟩
  fun_cases decodeCmd d <;> simp +zetaDelta at * <;> omega

/-- Settles O15: INIT is the row of command code 1. -/
theorem initOpensComputation : Obligations.InitOpensComputation := by
  refine ⟨encodedAs_cmd 1#4 0 fun d => ?_, fun ign s => rfl⟩
  fun_cases decodeCmd d <;> simp +zetaDelta at * <;> omega

/-- Settles O16: the reserved codes are 3 alone, the four from 4 on and the eight from 8 on, and each raises the error. -/
theorem reservedCommandSetsFlag : Obligations.ReservedCommandSetsFlag := by
  refine ⟨encodedAs_cmd 3#4 0 ?_, encodedAs_cmd 4#4 2 ?_, encodedAs_cmd 8#4 3 ?_, fun op ign s => ⟨rfl, rfl, rfl⟩⟩
  all_goals
    intro d
    fun_cases decodeCmd d <;> simp +zetaDelta at * <;> omega

/-! ### Data writes -/

theorem exec_of_isData {i : Instr} (s : State) (h : isData i = true) :
    exec i s = .next (noResponse (dataWrite (messageBytes i) s)) := by
  cases i with
  | dataW | dataB => rfl
  | _ => cases h

/-- Settles O19: each of the three ways a data write can go meets the premises of one clause. -/
theorem dataWriteAcceptance : Obligations.DataWriteAcceptance := by
  intro i s hData
  obtain ⟨hPhase, hLen, hSeq, hCmd, hInputs, -⟩ := absorbBytes_frame (messageBytes i) s
  rw [exec_of_isData s hData]
  rcases dataWrite_cases (messageBytes i) s with ⟨hp, e⟩ | ⟨hp, hc, e⟩ | ⟨hp, hc, e⟩
  · rw [e]
    exact ⟨fun _ => rfl, fun h => absurd h hp, fun h => absurd h hp⟩
  · rw [e]
    exact ⟨absurd hp, fun _ _ => rfl, fun _ h => absurd hc h.not_gt⟩
  · rw [e]
    exact ⟨absurd hp, fun _ h => absurd h hc.not_gt, fun _ _ =>
      ⟨_, rfl, absorbBytes_cnt_toNat _ hc, hPhase.trans hp, hLen, hSeq, hCmd, hInputs, rfl⟩⟩

/-- Settles O20: the accepted byte is absorbed, which writes at the tail and compresses in the first of two cases. -/
theorem byteGoesToTail : Obligations.ByteGoesToTail := by
  intro b g s hPhase hRoom hWf hIdle
  have hAccept : dataWrite [b] s = absorbByte s b := by
    rcases dataWrite_cases [b] s with ⟨hp, -⟩ | ⟨-, hc, -⟩ | ⟨-, -, e⟩
    · exact absurd hPhase hp
    · exact absurd hc hRoom.not_gt
    · exact e
  have hCnt := absorbByte_cnt_toNat b hRoom
  refine ⟨noResponse (absorbByte s b), congrArg (Host.Outcome.next ∘ noResponse) hAccept, hCnt, ?_, fun k => ?_, ?_, ?_⟩
  · rw [noResponse_buf, absorbByte_buf]
    exact Memory.wf_write _ _ hWf
  · rw [noResponse_buf, absorbByte_buf, Memory.read_write _ _ _ hWf]
    simp only [Fin.ext_iff, tailIdx]
  · rw [absorbByte_cnt] at hCnt
    rw [← hCnt]
    rcases absorbByte_cases s b with ⟨h, e⟩ | ⟨h, e⟩
    · rw [if_pos h, e]
      simp [withByte]
    · rw [if_neg h, e]
      simp [withByte]
  · simp [absorbByte_eseq b hIdle]

end Sys2Proof.Machine
end

