-- ==== Sys2Proof/Proofs/Registers.lean ====
section
/-! PROOFS. The reads and the ignored writes (42_driver.md R171 to R177): the word indices each row covers, and the value each
read returns. -/

namespace Sys2Proof.Machine

/-! ### STATUS -/

theorem toNat_flagBit (b : Bool) : (flagBit b).toNat = b.toNat := by cases b <;> rfl

/-- A word shifted clear of another joins it as a sum. -/
theorem toNat_or_shiftLeft {lo hi : Word} {n m k : Nat} (hn : lo.toNat = n) (hm : hi.toNat = m) (hlo : n < 2 ^ k)
    (hhi : 2 ^ k * m < 2 ^ 32) : (lo ||| hi <<< k).toNat = 2 ^ k * m + n := by
  subst hn hm
  rw [Nat.two_pow_add_eq_or_of_lt hlo, BitVec.toNat_or, BitVec.toNat_shiftLeft, Nat.shiftLeft_eq, Nat.mul_comm,
    Nat.mod_eq_of_lt hhi, Nat.or_comm]

/-- STATUS as a number: each field at its place (10_state.md R34). -/
theorem toNat_statusWord (s : State) :
    (statusWord s).toNat = 2 ^ 8 * (s.cnt.toNat % 64) + (2 ^ 4 * s.errCmd.toNat + (2 ^ 3 * s.errSeq.toNat +
      (2 ^ 2 * s.errLen.toNat + (phaseCode s.phase).toNat))) := by
  have hLen := s.errLen.toNat_le
  have hSeq := s.errSeq.toNat_le
  have hCmd := s.errCmd.toNat_le
  have hPhase : ((phaseCode s.phase).setWidth 32).toNat = (phaseCode s.phase).toNat :=
    BitVec.toNat_setWidth_of_le (by decide)
  have hCount : (BitVec.ofNat 32 (s.cnt.toNat % 64)).toNat = s.cnt.toNat % 64 := by
    rw [BitVec.toNat_ofNat]
    omega
  have h2 := toNat_or_shiftLeft (k := 2) hPhase (toNat_flagBit s.errLen) (by omega) (by omega)
  have h3 := toNat_or_shiftLeft (k := 3) h2 (toNat_flagBit s.errSeq) (by omega) (by omega)
  have h4 := toNat_or_shiftLeft (k := 4) h3 (toNat_flagBit s.errCmd) (by omega) (by omega)
  exact toNat_or_shiftLeft h4 hCount (by omega) (by omega)

/-- A bit of a vector is its number's binary digit. -/
theorem getLsbD_eq_of_toNat {w : Nat} {v : BitVec w} {k : Nat} {b : Bool} (h : v.toNat / 2 ^ k % 2 = b.toNat) :
    v.getLsbD k = b := by
  rw [BitVec.getLsbD, Nat.testBit_eq_decide_div_mod_eq, h]
  cases b <;> rfl

/-- Settles O23: each field is cut out of STATUS as a number. -/
theorem readStatusFields : Obligations.ReadStatusFields := by
  refine ⟨encodedAs_read 1#6 0 fun x d => ?_, fun d s => ⟨statusWord s, rfl, ?_⟩⟩
  · fun_cases decodeRead x d <;> simp <;> omega
  · have hStatus := toNat_statusWord s
    have hLen := s.errLen.toNat_le
    have hSeq := s.errSeq.toNat_le
    have hCmd := s.errCmd.toNat_le
    have hPhase := (phaseCode s.phase).isLt
    have hField (lo n : Nat) : ((statusWord s).extractLsb' lo n).toNat = (statusWord s).toNat / 2 ^ lo % 2 ^ n := by
      rw [BitVec.extractLsb'_toNat, Nat.shiftRight_eq_div_pow]
    have hCode : (statusWord s).extractLsb' 0 2 = phaseCode s.phase := BitVec.eq_of_toNat_eq (by rw [hField]; omega)
    refine ⟨hCode, getLsbD_eq_of_toNat (by omega), getLsbD_eq_of_toNat (by omega), getLsbD_eq_of_toNat (by omega),
      BitVec.eq_of_toNat_eq ?_, ?_, BitVec.eq_of_toNat_eq ?_⟩
    · rw [hField, BitVec.toNat_ofNat]; omega
    · rw [hField]; omega
    · rw [hField, BitVec.toNat_ofNat]; omega

/-! ### The count and the digest -/

/-- Settles O24: the low 32 bits of the count are its remainder by `2 ^ 32`, the bits above its quotient. -/
theorem readLength : Obligations.ReadLength := by
  refine ⟨encodedAs_read 4#6 0 ?_, encodedAs_read 5#6 0 ?_, fun d s => ⟨lenLo s, lenHi s, rfl, ?_, rfl, ?_⟩⟩
  iterate 2
    intro x d
    fun_cases decodeRead x d <;> simp <;> omega
  · simp [lenLo]
  · simp [lenHi]
    omega

theorem decodeRead_digest (w : BitVec 2) (d : Word) : decodeRead (0b0010#4 ++ w) d = .rdDigest w d := by
  have hIndex : (0b0010#4 ++ w).toNat = 8 + w.toNat := toNat_append_eq_add 0b0010#4 w
  have hArg : (0b0010#4 ++ w).extractLsb' 0 2 = w := BitVec.extractLsb'_append_eq_right
  have hw := w.isLt
  rw [decodeRead, hIndex, hArg]
  simp (disch := omega) only [if_neg, if_pos]

/-- Settles O25: the four word indices from 8 on read the four registers of `ST`. -/
theorem readDigestIsLive : Obligations.ReadDigestIsLive := by
  refine ⟨encodedAs_read 8#6 2 fun x d => ?_, fun w d => ?_, fun d s => ⟨rfl, rfl, rfl, rfl⟩⟩
  · fun_cases decodeRead x d <;> simp <;> omega
  · rw [decodeHT_htWord]
    exact decodeRead_digest w d

/-! ### The benign accesses -/

/-- Settles O29: each row covers a power of two of word indices, and its meaning returns 0. -/
theorem benignReadsReturnZero : Obligations.BenignReadsReturnZero := by
  refine ⟨encodedAs_read 0#6 0 ?_, encodedAs_read 2#6 0 ?_, encodedAs_read 3#6 0 ?_, encodedAs_read 6#6 1 ?_,
    encodedAs_read 12#6 2 ?_, encodedAs_read 24#6 3 ?_, encodedAs_read 32#6 5 ?_,
    fun x d s => ⟨rfl, rfl, rfl, rfl, rfl, rfl, rfl⟩⟩
  all_goals
    intro x d
    fun_cases decodeRead x d <;> simp <;> omega

/-- Settles O30: each row covers a power of two of word indices, and its meaning returns nothing. -/
theorem benignWritesIgnored : Obligations.BenignWritesIgnored := by
  refine ⟨encodedAs_write 1#6 0 ?_, encodedAs_write 4#6 0 ?_, encodedAs_write 5#6 0 ?_, encodedAs_write 8#6 2 ?_,
    encodedAs_write 16#6 3 ?_, encodedAs_write 6#6 1 ?_, encodedAs_write 12#6 2 ?_, encodedAs_write 24#6 3 ?_,
    encodedAs_write 32#6 5 ?_, fun w k x d s => ⟨rfl, rfl, rfl, rfl, rfl, rfl, rfl, rfl, rfl⟩⟩
  all_goals
    intro x d
    fun_cases decodeWrite x d <;> simp [isCmdWrite] <;> omega

end Sys2Proof.Machine
end

