-- ==== Sys2Proof/Proofs/Exceptions.lean ====
section
/-! PROOFS. Errors of the driver (60_exceptions.md R222): what an access outside ABSORB does. -/

namespace Sys2Proof.Machine

theorem exec_final_of_phase_ne (ign : BitVec 28) {s : State} (hp : s.phase ≠ .absorb) :
    exec (.final ign) s = .next { s with errSeq := true, rdata := none } := by
  rcases finalOp_cases s with ⟨-, e⟩ | ⟨hAbsorb, -⟩
  · exact congrArg (Host.Outcome.next ∘ noResponse) e
  · exact absurd hAbsorb hp

/-- Settles O17: a data write is checked against the phase first (`dataWriteAcceptance`), and FINAL is checked against it
alone. -/
theorem outOfPhaseSetsFlag : Obligations.OutOfPhaseSetsFlag := by
  intro b0 b1 b2 b3 g ign s hp
  obtain ⟨hWord, -, -⟩ := dataWriteAcceptance (.dataW b0 b1 b2 b3) s rfl
  obtain ⟨hByte, -, -⟩ := dataWriteAcceptance (.dataB b0 g) s rfl
  exact ⟨hWord hp, hByte hp, exec_final_of_phase_ne ign hp⟩

end Sys2Proof.Machine
end

