-- ==== Sys2Proof/Proofs/Reset.lean ====
section
/-! PROOFS. The state after reset and the registers that read from it (70_reset_and_hazards.md R251). -/

namespace Sys2Proof.Machine

/-- Settles O12: the fields are those of `State.reset`, STATUS is 0 as each of its summands is (`toNat_statusWord`), and the
count's words and the rendering of `IV` are closed values. -/
theorem resetValues : Obligations.ResetValues := by
  have hStatus : statusWord State.reset = 0#32 := BitVec.eq_of_toNat_eq (toNat_statusWord State.reset)
  exact ⟨rfl, rfl, rfl, rfl, rfl, rfl, rfl, hStatus, rfl, rfl, by decide⟩

end Sys2Proof.Machine
end

