-- ==== Sys2Proof/Proofs/DecodeEncode.lean ====
section
/-! PROOFS. Decoding and encoding are inverse to each other (30_encoding.md sections 1 to 4), the bits of a write that have no
effect (R74, R76), and the one row of the opcode table that matches a word (R85). -/

namespace Sys2Proof.Machine

open Sys2Proof.Safety

/-! ### The bytes of a word -/

theorem toNat_extractLsb' {w : Nat} (v : BitVec w) (lo n : Nat) :
    (v.extractLsb' lo n).toNat = v.toNat / 2 ^ lo % 2 ^ n := by
  rw [BitVec.extractLsb'_toNat, Nat.shiftRight_eq_div_pow]

/-- The four bytes of a word put together from them. -/
theorem extractLsb'_le32 (b0 b1 b2 b3 : Byte) :
    (le32 b0 b1 b2 b3).extractLsb' 0 8 = b0 ∧ (le32 b0 b1 b2 b3).extractLsb' 8 8 = b1 ∧
      (le32 b0 b1 b2 b3).extractLsb' 16 8 = b2 ∧ (le32 b0 b1 b2 b3).extractLsb' 24 8 = b3 := by
  have hWord := toNat_le32 b0 b1 b2 b3
  refine ⟨?_, ?_, ?_, ?_⟩ <;> refine BitVec.eq_of_toNat_eq ?_ <;> rw [toNat_extractLsb'] <;> omega

/-- A word is put together from its four bytes. -/
theorem le32_extractLsb' (d : Word) :
    le32 (d.extractLsb' 0 8) (d.extractLsb' 8 8) (d.extractLsb' 16 8) (d.extractLsb' 24 8) = d := by
  refine BitVec.eq_of_toNat_eq ?_
  simp only [toNat_le32, toNat_extractLsb']
  omega

/-! ### The rows that carry operands in the word index or in the data -/

theorem decodeWrite_dataW (b0 b1 b2 b3 : Byte) : decodeWrite 2#6 (le32 b0 b1 b2 b3) = .dataW b0 b1 b2 b3 := by
  obtain ⟨h0, h1, h2, h3⟩ := extractLsb'_le32 b0 b1 b2 b3
  have hRow (d : Word) : decodeWrite 2#6 d =
    .dataW (d.extractLsb' 0 8) (d.extractLsb' 8 8) (d.extractLsb' 16 8) (d.extractLsb' 24 8) := rfl
  rw [hRow, h0, h1, h2, h3]

theorem decodeWrite_dataB (b : Byte) (ign : BitVec 24) : decodeWrite 3#6 (ign ++ b) = .dataB b ign := by
  have hByte : (ign ++ b).extractLsb' 0 8 = b := BitVec.extractLsb'_append_eq_right
  have hIgn : (ign ++ b).extractLsb' 8 24 = ign := BitVec.extractLsb'_append_eq_left
  exact congrArg₂ Instr.dataB hByte hIgn

theorem decodeRead_hex (k : BitVec 3) (d : Word) : decodeRead (0b010#3 ++ k) d = .rdHex k d := by
  have hIndex : (0b010#3 ++ k).toNat = 16 + k.toNat := toNat_append_eq_add 0b010#3 k
  have hArg : (0b010#3 ++ k).extractLsb' 0 3 = k := BitVec.extractLsb'_append_eq_right
  simp (disch := omega) only [decodeRead, hArg, if_neg, if_pos]

theorem decodeWrite_digest (w : BitVec 2) (d : Word) : decodeWrite (0b0010#4 ++ w) d = .wrDigest w d := by
  have hIndex : (0b0010#4 ++ w).toNat = 8 + w.toNat := toNat_append_eq_add 0b0010#4 w
  have hArg : (0b0010#4 ++ w).extractLsb' 0 2 = w := BitVec.extractLsb'_append_eq_right
  simp (disch := omega) only [decodeWrite, hArg, if_neg, if_pos]

theorem decodeWrite_hex (k : BitVec 3) (d : Word) : decodeWrite (0b010#3 ++ k) d = .wrHex k d := by
  have hIndex : (0b010#3 ++ k).toNat = 16 + k.toNat := toNat_append_eq_add 0b010#3 k
  have hArg : (0b010#3 ++ k).extractLsb' 0 3 = k := BitVec.extractLsb'_append_eq_right
  simp (disch := omega) only [decodeWrite, hArg, if_neg, if_pos]

/-- A CMD write is decoded by its command code (30_encoding.md R74). -/
theorem decodeCmd_append (op : BitVec 4) (ign : BitVec 28) :
    decodeCmd (ign ++ op) =
      if op.toNat = 0 then .nop ign
      else if op.toNat = 1 then .init ign
      else if op.toNat = 2 then .final ign
      else if op.toNat = 3 then .cmdRsvd3 ign
      else if op.toNat < 8 then .cmdRsvd4to7 op ign
      else .cmdRsvd8toF op ign := by
  have hOp : (ign ++ op).extractLsb' 0 4 = op := BitVec.extractLsb'_append_eq_right
  have hIgn : (ign ++ op).extractLsb' 4 28 = ign := BitVec.extractLsb'_append_eq_left
  rw [decodeCmd, hOp, hIgn]

/-! ### Decode after encode -/

theorem decodeEncoded_htRead (x : Widx) (d : Word) : decodeEncoded (htRead x d) = decodeRead x d :=
  decodeHT_htWord 0#1 x d

theorem decodeEncoded_htWrite (x : Widx) (d : Word) : decodeEncoded (htWrite x d) = decodeWrite x d :=
  decodeHT_htWord 1#1 x d

theorem decodeEncoded_htCmd (op : BitVec 4) (ign : BitVec 28) :
    decodeEncoded (htCmd op ign) = decodeCmd (ign ++ op) := decodeEncoded_htWrite 0#6 (ign ++ op)

theorem inRange_iff {n : Nat} {v : BitVec n} {lo hi : Nat} :
    inRange v lo hi = true ↔ lo ≤ v.toNat ∧ v.toNat ≤ hi := by
  simp [inRange]

/-- Settles O2: a fixed row is decoded by its constant; a row with a range of values is decoded to itself because the range
that `WellFormed` gives its operand is the one the decoder tests. -/
theorem decodeOfEncode : Obligations.DecodeOfEncode := by
  intro i h
  cases i with
  | nop ign | init ign | final ign | cmdRsvd3 ign => exact (decodeEncoded_htCmd ..).trans (decodeCmd_append _ ign)
  | cmdRsvd4to7 | cmdRsvd8toF =>
    obtain ⟨hLo, hHi⟩ := inRange_iff.1 h
    simp (disch := omega) only [encode, decodeEncoded_htCmd, decodeCmd_append, if_neg, if_pos]
  | dataW b0 b1 b2 b3 => exact (decodeEncoded_htWrite ..).trans (decodeWrite_dataW b0 b1 b2 b3)
  | dataB b ign => exact (decodeEncoded_htWrite ..).trans (decodeWrite_dataB b ign)
  | rdDigest w d => exact (decodeEncoded_htRead ..).trans (decodeRead_digest w d)
  | rdHex k d => exact (decodeEncoded_htRead ..).trans (decodeRead_hex k d)
  | wrDigest w d => exact (decodeEncoded_htWrite ..).trans (decodeWrite_digest w d)
  | wrHex k d => exact (decodeEncoded_htWrite ..).trans (decodeWrite_hex k d)
  | rdStatus | rdLenLo | rdLenHi | rdCmd | rdDataW | rdDataB => exact decodeEncoded_htRead ..
  | wrStatus | wrLenLo | wrLenHi => exact decodeEncoded_htWrite ..
  | rdRsvd6to7 | rdRsvd12to15 | rdRsvd24to31 | rdRsvd32to63 =>
    obtain ⟨hLo, hHi⟩ := inRange_iff.1 h
    simp (disch := omega) only [encode, decodeEncoded_htRead, decodeRead, if_neg, if_pos]
  | wrRsvd6to7 | wrRsvd12to15 | wrRsvd24to31 | wrRsvd32to63 =>
    obtain ⟨hLo, hHi⟩ := inRange_iff.1 h
    simp (disch := omega) only [encode, decodeEncoded_htWrite, decodeWrite, if_neg, if_pos]
  | unpack | accum => rfl
  | stepF i | stepG i | stepH i | stepI i =>
    obtain ⟨hLo, hHi⟩ := inRange_iff.1 h
    have hWord : (0b10#2 ++ i).toNat = 0x80 + i.toNat := toNat_append_eq_add 0b10#2 i
    have hIndex : (0b10#2 ++ i).extractLsb' 0 6 = i := BitVec.extractLsb'_append_eq_right
    simp (disch := omega) only [encode, decodeEncoded, decodeRCW, hIndex, if_neg, if_pos]
  | rcwRsvd02to03 | rcwRsvd04to07 | rcwRsvd08to0F | rcwRsvd10to1F | rcwRsvd20to3F | rcwRsvd40to7F | rcwRsvdC0toFF =>
    obtain ⟨hLo, hHi⟩ := inRange_iff.1 h
    simp (disch := omega) only [encode, decodeEncoded, decodeRCW, if_neg, if_pos]

/-! ### Encode after decode -/

/-- The command code and the ignored bits make up the data of a CMD write. -/
theorem cmd_fields (d : Word) : d.extractLsb' 4 28 ++ d.extractLsb' 0 4 = d := by
  refine BitVec.eq_of_toNat_eq ?_
  rw [toNat_append_eq_add, toNat_extractLsb', toNat_extractLsb']
  omega

theorem encode_decodeCmd (d : Word) :
    WellFormed (decodeCmd d) = true ∧ encode (decodeCmd d) = .ht (htWord 1#1 0#6 d) := by
  have hFixed {n : Nat} (h : (d.extractLsb' 0 4).toNat = n) :
      htCmd (BitVec.ofNat 4 n) (d.extractLsb' 4 28) = .ht (htWord 1#1 0#6 d) := by
    rw [← h, BitVec.ofNat_toNat, BitVec.setWidth_eq, htCmd, cmd_fields, htWrite]
  have hRange : htCmd (d.extractLsb' 0 4) (d.extractLsb' 4 28) = .ht (htWord 1#1 0#6 d) := by
    rw [htCmd, cmd_fields, htWrite]
  have hOp := (d.extractLsb' 0 4).isLt
  fun_cases decodeCmd d with
  | case1 | case2 | case3 | case4 => exact ⟨rfl, hFixed ‹_›⟩
  | case5 | case6 => exact ⟨inRange_iff.2 ⟨by omega, by omega⟩, hRange⟩

/-- A fixed high part and the bits below it make up a word index of the range they stand for. -/
theorem widx_fields {n : Nat} (hi : BitVec (6 - n)) {x : Widx} (hn : n ≤ 6) (hx : x.toNat / 2 ^ n = hi.toNat) :
    (hi ++ x.extractLsb' 0 n).cast (Nat.sub_add_cancel hn) = x := by
  refine BitVec.eq_of_toNat_eq ?_
  rw [BitVec.toNat_cast, toNat_append_eq_add, toNat_extractLsb', ← hx, Nat.pow_zero, Nat.div_one, Nat.div_add_mod]

theorem encode_decodeWrite (x : Widx) (d : Word) :
    WellFormed (decodeWrite x d) = true ∧ encode (decodeWrite x d) = .ht (htWord 1#1 x d) := by
  have hFixed {n : Nat} {d' : Word} (h : x.toNat = n) (hd : d' = d) :
      htWrite (BitVec.ofNat 6 n) d' = .ht (htWord 1#1 x d) := by
    rw [← h, BitVec.ofNat_toNat, BitVec.setWidth_eq, hd, htWrite]
  have hBytes : d.extractLsb' 8 24 ++ d.extractLsb' 0 8 = d := by
    refine BitVec.eq_of_toNat_eq ?_
    rw [toNat_append_eq_add, toNat_extractLsb', toNat_extractLsb']
    omega
  fun_cases decodeWrite x d with
  | case1 _ h =>
    obtain rfl : x = 0#6 := BitVec.eq_of_toNat_eq h
    exact encode_decodeCmd d
  | case3 _ _ _ h => exact ⟨rfl, hFixed h (le32_extractLsb' d)⟩
  | case4 _ _ _ _ h => exact ⟨rfl, hFixed h hBytes⟩
  | case2 | case5 | case6 => exact ⟨rfl, hFixed ‹_› rfl⟩
  | case8 => exact ⟨rfl, congrArg (htWrite · d) (widx_fields (n := 2) 0b0010#4 (by omega) (by simp; omega))⟩
  | case10 => exact ⟨rfl, congrArg (htWrite · d) (widx_fields (n := 3) 0b010#3 (by omega) (by simp; omega))⟩
  | case7 | case9 | case11 | case12 => exact ⟨inRange_iff.2 ⟨by omega, by omega⟩, rfl⟩

theorem encode_decodeRead (x : Widx) (d : Word) :
    WellFormed (decodeRead x d) = true ∧ encode (decodeRead x d) = .ht (htWord 0#1 x d) := by
  have hFixed {n : Nat} (h : x.toNat = n) : htRead (BitVec.ofNat 6 n) d = .ht (htWord 0#1 x d) := by
    rw [← h, BitVec.ofNat_toNat, BitVec.setWidth_eq, htRead]
  fun_cases decodeRead x d with
  | case1 | case2 | case3 | case4 | case5 | case6 => exact ⟨rfl, hFixed ‹_›⟩
  | case8 => exact ⟨rfl, congrArg (htRead · d) (widx_fields (n := 2) 0b0010#4 (by omega) (by simp; omega))⟩
  | case10 => exact ⟨rfl, congrArg (htRead · d) (widx_fields (n := 3) 0b010#3 (by omega) (by simp; omega))⟩
  | case7 | case9 | case11 | case12 => exact ⟨inRange_iff.2 ⟨by omega, by omega⟩, rfl⟩

theorem encode_decodeHT (v : HtWord) : WellFormed (decodeHT v) = true ∧ encode (decodeHT v) = .ht v := by
  obtain ⟨we, x, d, rfl⟩ : ∃ we x d, htWord we x d = v := ⟨_, _, _, htWord_fields v⟩
  rw [decodeHT_htWord]
  obtain rfl | rfl : we = 0#1 ∨ we = 1#1 := by revert we; decide
  · exact encode_decodeRead x d
  · exact encode_decodeWrite x d

theorem encode_decodeRCW (w : RcwWord) : WellFormed (decodeRCW w) = true ∧ encode (decodeRCW w) = .rcw w := by
  have hIndex : (w.extractLsb' 0 6).toNat = w.toNat % 64 := by simp
  have hRange {lo hi : Nat} (hLo : lo ≤ w.toNat % 64) (hHi : w.toNat % 64 ≤ hi) :
      inRange (w.extractLsb' 0 6) lo hi = true := inRange_iff.2 ⟨hIndex ▸ hLo, hIndex ▸ hHi⟩
  have hStep (h : 0x80 ≤ w.toNat ∧ w.toNat < 0xC0) : 0b10#2 ++ w.extractLsb' 0 6 = w := by
    have hWord : (0b10#2 ++ w.extractLsb' 0 6).toNat = 0x80 + (w.extractLsb' 0 6).toNat := toNat_append_eq_add ..
    refine BitVec.eq_of_toNat_eq ?_
    omega
  fun_cases decodeRCW w with
  | case1 | case2 => exact ⟨rfl, congrArg Encoded.rcw (BitVec.eq_of_toNat_eq ‹_›).symm⟩
  | case9 | case10 | case11 | case12 =>
    exact ⟨hRange (by omega) (by omega), congrArg Encoded.rcw (hStep ⟨by omega, by omega⟩)⟩
  | _ => exact ⟨inRange_iff.2 ⟨by omega, by omega⟩, rfl⟩

/-- Settles O3: branch by branch of the decoder, the fields it cuts out make up the word again. -/
theorem encodeOfDecode : Obligations.EncodeOfDecode := ⟨encode_decodeHT, encode_decodeRCW⟩

/-- Settles O1: each sample word is decoded by computation. -/
theorem sampleWordsDecode : Obligations.SampleWordsDecode := by
  unfold Obligations.SampleWordsDecode
  decide

/-! ### The layout in bytes -/

/-- The seven bits above 32 fill the last byte, with bit 39 zero. -/
theorem decodeBytes_encodedBytes (e : Encoded) : decodeBytes (encodedBytes e) = .instr (decodeEncoded e) := by
  cases e with
  | rcw w => rfl
  | ht v =>
    have hTop : (0#1 ++ v.extractLsb' 32 7).toNat = (v.extractLsb' 32 7).toNat := by
      rw [toNat_append_eq_add]
      simp
    have hBit39 : (0#1 ++ v.extractLsb' 32 7).getLsbD 7 = false := by
      rw [BitVec.getLsbD_append]
      simp
    have hWord : (0#1 ++ v.extractLsb' 32 7).extractLsb' 0 7 ++ v.extractLsb' 24 8 ++ v.extractLsb' 16 8 ++
        v.extractLsb' 8 8 ++ v.extractLsb' 0 8 = v := by
      refine BitVec.eq_of_toNat_eq ?_
      simp only [toNat_append_eq_add, toNat_extractLsb']
      omega
    simp only [encodedBytes, decodeBytes, hBit39, hWord, decodeEncoded]
    rfl

/-- Settles O5: the bytes give the encoded word back, which decodes to its instruction (`decodeOfEncode`). -/
theorem bytesRoundTrip : Obligations.BytesRoundTrip := by
  refine ⟨fun i h => ?_, fun bs h1 h5 => ?_⟩
  · rw [decodeBytes_encodedBytes, decodeOfEncode i h]
  · fun_cases decodeBytes bs with
    | case1 => exact absurd rfl h1
    | case2 | case3 => exact absurd rfl h5
    | case4 => rfl

/-! ### The ignored bits of a write -/

theorem exec_decodeCmd_of_code {d d' : Word} (s : State) (h : d.extractLsb' 0 4 = d'.extractLsb' 0 4) :
    exec (decodeCmd d) s = exec (decodeCmd d') s := by
  simp only [decodeCmd, h, apply_ite (exec · s)]
  rfl

/-- Settles O7: the decoder takes the branch from the low bits, and the meanings do not use the others. -/
theorem writeIgnoresUpperBits : Obligations.WriteIgnoresUpperBits := by
  intro d d' s
  have hWrite (x : Widx) (w : Word) : decodeHT (htWord 1#1 x w) = decodeWrite x w := decodeHT_htWord 1#1 x w
  rw [hWrite, hWrite, hWrite, hWrite]
  refine ⟨fun h => exec_decodeCmd_of_code s h, fun h => ?_⟩
  exact congrArg (fun b => Host.Outcome.next (noResponse (dataWrite [b] s))) h

/-! ### The opcode table -/

/-- A row of control words: the `2 ^ k` words from `first` on. -/
theorem controlEncodedAs_range {p : Instr → Prop} (first k : Nat)
    (hRow : ∀ w : RcwWord, p (decodeRCW w) ↔ 2 ^ k * (w.toNat / 2 ^ k) = first) (hk : k ≤ 8 := by decide) :
    ControlEncodedAs first (2 ^ k * (2 ^ (8 - k) - 1)) p := by
  intro w
  rw [and_bitRange hk, Nat.mod_eq_of_lt w.isLt, hRow]

/-- FINAL is the row of command code 2. -/
theorem final_encoding : EncodedAs 0x4000000002 0x7F0000000F (fun i => ∃ ign, i = .final ign) := by
  refine encodedAs_cmd 2#4 0 fun d => ?_
  fun_cases decodeCmd d <;> simp +zetaDelta at * <;> omega

theorem dataW_encoding : EncodedAs 0x4200000000 0x7F00000000 (fun i => ∃ b0 b1 b2 b3, i = .dataW b0 b1 b2 b3) := by
  refine encodedAs_write 2#6 0 fun x d => ?_
  fun_cases decodeWrite x d <;> simp [isCmdWrite] <;> omega

theorem dataB_encoding : EncodedAs 0x4300000000 0x7F00000000 (fun i => ∃ b g, i = .dataB b g) := by
  refine encodedAs_write 3#6 0 fun x d => ?_
  fun_cases decodeWrite x d <;> simp [isCmdWrite] <;> omega

/-- RD HEXk is the row of the eight word indices from 16 on. -/
theorem rdHex_encoding : EncodedAs 0x1000000000 0x7800000000 (fun i => ∃ k d, i = .rdHex k d) := by
  refine encodedAs_read 16#6 3 fun x d => ?_
  fun_cases decodeRead x d <;> simp <;> omega

/-- A row of host transactions matches the words of the instructions with its mnemonic, and no others. -/
theorem htRow_matches_iff :
    ∀ r ∈ opcodeRows .ht, ∀ v : HtWord, r.matches v.toNat = true ↔ (decodeHT v).mnemonic = r.name := by
  have hRow {name : String} {bits mask : Nat} {p : Instr → Prop} (h : EncodedAs bits mask p)
      (hp : ∀ i, p i ↔ i.mnemonic = name) (v : HtWord) :
      OpRow.matches ⟨name, bits, mask⟩ v.toNat = true ↔ (decodeHT v).mnemonic = name := by
    rw [OpRow.matches, beq_iff_eq, h v, hp]
  obtain ⟨hNop, -⟩ := nopChangesNothing
  obtain ⟨hInit, -⟩ := initOpensComputation
  obtain ⟨hCmd3, hCmd4, hCmd8, -⟩ := reservedCommandSetsFlag
  obtain ⟨hStatus, -⟩ := readStatusFields
  obtain ⟨hLenLo, hLenHi, -⟩ := readLength
  obtain ⟨hDigest, -⟩ := readDigestIsLive
  obtain ⟨hRdCmd, hRdDataW, hRdDataB, hRd6, hRd12, hRd24, hRd32, -⟩ := benignReadsReturnZero
  obtain ⟨hWrStatus, hWrLenLo, hWrLenHi, hWrDigest, hWrHex, hWr6, hWr12, hWr24, hWr32, -⟩ := benignWritesIgnored
  simp only [opcodeRows, htWriteRows, htReadRows, List.cons_append, List.nil_append, List.forall_mem_cons]
  refine ⟨hRow hNop ?_, hRow hInit ?_, hRow final_encoding ?_, hRow hCmd3 ?_, hRow hCmd4 ?_, hRow hCmd8 ?_,
    hRow dataW_encoding ?_, hRow dataB_encoding ?_, hRow hWrStatus ?_, hRow hWrLenLo ?_, hRow hWrLenHi ?_,
    hRow hWrDigest ?_, hRow hWrHex ?_, hRow hWr6 ?_, hRow hWr12 ?_, hRow hWr24 ?_, hRow hWr32 ?_, hRow hStatus ?_,
    hRow hLenLo ?_, hRow hLenHi ?_, hRow hDigest ?_, hRow rdHex_encoding ?_, hRow hRdCmd ?_, hRow hRdDataW ?_,
    hRow hRdDataB ?_, hRow hRd6 ?_, hRow hRd12 ?_, hRow hRd24 ?_, hRow hRd32 ?_, by simp⟩
  all_goals
    intro i
    cases i <;> simp [Instr.mnemonic]

/-- A row of control words matches the words of the instructions with its mnemonic, and no others. -/
theorem rcwRow_matches_iff :
    ∀ r ∈ opcodeRows .rcw, ∀ w : RcwWord, r.matches w.toNat = true ↔ (decodeRCW w).mnemonic = r.name := by
  have hRow {name : String} (first k : Nat)
      (h : ∀ w : RcwWord, (decodeRCW w).mnemonic = name ↔ 2 ^ k * (w.toNat / 2 ^ k) = first)
      (hk : k ≤ 8 := by decide) (w : RcwWord) :
      OpRow.matches ⟨name, first, 2 ^ k * (2 ^ (8 - k) - 1)⟩ w.toNat = true ↔ (decodeRCW w).mnemonic = name := by
    rw [OpRow.matches, beq_iff_eq, controlEncodedAs_range (p := fun i => i.mnemonic = name) first k h hk w]
  simp only [opcodeRows, rcwRows, List.forall_mem_cons]
  refine ⟨hRow 0x00 0 ?_, hRow 0x01 0 ?_, hRow 0x80 4 ?_, hRow 0x90 4 ?_, hRow 0xA0 4 ?_, hRow 0xB0 4 ?_,
    hRow 0x02 1 ?_, hRow 0x04 2 ?_, hRow 0x08 3 ?_, hRow 0x10 4 ?_, hRow 0x20 5 ?_, hRow 0x40 6 ?_, hRow 0xC0 6 ?_,
    by simp⟩
  all_goals
    intro w
    have hw := w.isLt
    fun_cases decodeRCW w <;> simp [Instr.mnemonic] <;> omega

/-- Each mnemonic names one row of its format. -/
theorem rows_of_mnemonic (i : Instr) :
    ((opcodeRows (if isAccess i then .ht else .rcw)).filter fun r => i.mnemonic = r.name).map OpRow.name =
      [i.mnemonic] := by
  cases i <;> rfl

/-- Settles O4: a row matches exactly the words with its mnemonic (`htRow_matches_iff`, `rcwRow_matches_iff`), and the
mnemonics of a format differ. -/
theorem exactlyOneRowMatches : Obligations.ExactlyOneRowMatches := by
  refine ⟨fun v => ?_, fun w => ?_⟩
  · have hFormat : isAccess (decodeHT v) = true := by rw [isAccess, (encode_decodeHT v).2]
    rw [← rows_of_mnemonic, hFormat, if_pos rfl]
    exact congrArg _ (List.filter_congr fun r hr => by rw [Bool.eq_iff_iff, htRow_matches_iff r hr, decide_eq_true_iff])
  · have hFormat : isAccess (decodeRCW w) = false := by rw [isAccess, (encode_decodeRCW w).2]
    rw [← rows_of_mnemonic, hFormat, if_neg Bool.false_ne_true]
    exact congrArg _ (List.filter_congr fun r hr => by rw [Bool.eq_iff_iff, rcwRow_matches_iff r hr, decide_eq_true_iff])

end Sys2Proof.Machine
end

