-- ==== Sys2Proof/Proofs/MicroOps.lean ====
section
/-! PROOFS. STEP and the compression: the rotation, the schedule, the four forms of STEP, the 66 micro-operations, and the
rotating formulation (41_compression.md R127 to R138, R142). -/

namespace Sys2Proof.Machine

open Sys2Proof.Safety

/-! ### The rotation (R131) -/

theorem rotl32_eq_rotateLeft (v : Word) {s : Nat} (hs : s < 32) : rotl32 v s = v.rotateLeft s := by
  rw [rotl32, BitVec.rotateLeft, BitVec.rotateLeftAux, Nat.mod_eq_of_lt hs]

theorem getLsbD_rotl32 (v : Word) {s k : Nat} (hs : s < 32) (hk : k < 32) :
    (rotl32 v s).getLsbD ((k + s) % 32) = v.getLsbD k := by
  rw [rotl32_eq_rotateLeft v hs, BitVec.getLsbD_rotateLeft, Nat.mod_eq_of_lt hs]
  by_cases hWrap : k + s < 32
  · rw [Nat.mod_eq_of_lt hWrap, decide_eq_false (by omega), decide_eq_true hWrap, Nat.add_sub_cancel]
    simp
  · rw [show (k + s) % 32 = k + s - 32 by omega, decide_eq_true (by omega), cond_true]
    congr 1
    omega

theorem toNat_rotl32 (v : Word) (s : Nat) :
    (rotl32 v s).toNat = ((v.toNat <<< s) ||| (v.toNat >>> (32 - s))) % 2 ^ 32 := by
  have hLow : v.toNat >>> (32 - s) < 2 ^ 32 := (Nat.shiftRight_le ..).trans_lt v.isLt
  rw [rotl32, BitVec.toNat_or, BitVec.toNat_shiftLeft, BitVec.toNat_ushiftRight, Nat.or_mod_two_pow,
    Nat.mod_eq_of_lt hLow]

/-- Settles O38: the rotation is the library's `rotateLeft`, and the bits shifted right are below `2 ^ 32`. -/
theorem rotationMovesBits : Obligations.RotationMovesBits :=
  fun v s _ _ hs hk => ⟨getLsbD_rotl32 v hs hk, toNat_rotl32 v s⟩

/-! ### The schedule and the rotation amounts (R127, R128) -/

theorem toNat_roundOf (i : BitVec 6) : (roundOf i).toNat = i.toNat / 16 := by
  rw [roundOf, toNat_extractLsb']
  omega

theorem toNat_roleSelect (i : BitVec 6) : (roleSelect i).toNat = i.toNat % 4 := by
  simp [roleSelect]

theorem roundOf_cases (i : BitVec 6) :
    (roundOf i).toNat = 0 ∨ (roundOf i).toNat = 1 ∨ (roundOf i).toNat = 2 ∨ (roundOf i).toNat = 3 := by omega

/-- The message word of a step, by its round. -/
theorem val_msgIndex (n : BitVec 6) :
    (msgIndex n).val =
      if n.toNat < 16 then n.toNat else if n.toNat < 32 then (5 * n.toNat + 1) % 16
      else if n.toNat < 48 then (3 * n.toNat + 5) % 16 else 7 * n.toNat % 16 := by
  have hRound := toNat_roundOf n
  rcases roundOf_cases n with h | h | h | h <;> simp only [msgIndex, h] <;> split_ifs <;> omega

/-- Each round reads every message word once: 1, 5, 3 and 7 are invertible modulo 16, with inverses 1, 13, 11 and 7. -/
theorem existsUnique_msgIndex (q : BitVec 2) (j : Fin 16) : ∃! r : BitVec 4, msgIndex (q ++ r) = j := by
  have hIndex (r : BitVec 4) : (q ++ r).toNat = 16 * q.toNat + r.toNat := toNat_append_eq_add q r
  have hq : q.toNat = 0 ∨ q.toNat = 1 ∨ q.toNat = 2 ∨ q.toNat = 3 := by omega
  have hUnique (f : Nat) (h : ∀ r : BitVec 4, msgIndex (q ++ r) = j ↔ r.toNat = f % 16) :
      ∃! r : BitVec 4, msgIndex (q ++ r) = j :=
    ⟨BitVec.ofNat 4 f, (h _).2 (by simp), fun r hr => BitVec.eq_of_toNat_eq (by simpa using (h r).1 hr)⟩
  simp only [Fin.ext_iff, val_msgIndex, hIndex] at hUnique ⊢
  rcases hq with h | h | h | h
  · exact hUnique j fun r => by split_ifs <;> omega
  · exact hUnique (13 * (j + 15)) fun r => by split_ifs <;> omega
  · exact hUnique (11 * (j + 11)) fun r => by split_ifs <;> omega
  · exact hUnique (7 * j) fun r => by split_ifs <;> omega

/-- The rows of the table of rotation amounts, one after another. -/
theorem rotRow_getElem : ∀ q r : BitVec 2,
    (rotRow q)[r.toNat]'r.isLt =
      [7, 12, 17, 22, 5, 9, 14, 20, 4, 11, 16, 23, 6, 10, 15, 21].getD (4 * q.toNat + r.toNat) 0 ∧
    4 ≤ (rotRow q)[r.toNat]'r.isLt ∧ (rotRow q)[r.toNat]'r.isLt ≤ 23 := by decide

theorem rotAmount_spec (n : BitVec 6) :
    rotAmount n = [7, 12, 17, 22, 5, 9, 14, 20, 4, 11, 16, 23, 6, 10, 15, 21].getD
      (4 * (n.toNat / 16) + n.toNat % 4) 0 ∧ 4 ≤ rotAmount n ∧ rotAmount n ≤ 23 := by
  have h := rotRow_getElem (roundOf n) (roleSelect n)
  rwa [← toNat_roundOf, ← toNat_roleSelect]

/-- Settles O37: the schedule's value in each round makes it a bijection, and the amounts stand in the table. -/
theorem scheduleAndRotations : Obligations.ScheduleAndRotations :=
  ⟨val_msgIndex, existsUnique_msgIndex, rotAmount_spec⟩

/-! ### The four forms of STEP (R132 to R136) -/

/-- The value a step gives its accumulator. -/
def stepValue (f : Word → Word → Word → Word) (mw : Vector Word 16) (i : BitVec 6) (acc x y z : Word) : Word :=
  x + rotl32 (acc + f x y z + addConst i + mw[msgIndex i]) (rotAmount i)

/-- A step by the role of each register: which one it writes and which it reads (R130). -/
theorem stepWords_eq (f : Word → Word → Word → Word) (mw : Vector Word 16) (i : BitVec 6) (wk : Quad) :
    stepWords f mw i wk =
      if i.toNat % 4 = 0 then ⟨stepValue f mw i wk.a wk.b wk.c wk.d, wk.b, wk.c, wk.d⟩
      else if i.toNat % 4 = 1 then ⟨wk.a, wk.b, wk.c, stepValue f mw i wk.d wk.a wk.b wk.c⟩
      else if i.toNat % 4 = 2 then ⟨wk.a, wk.b, stepValue f mw i wk.c wk.d wk.a wk.b, wk.d⟩
      else ⟨wk.a, stepValue f mw i wk.b wk.c wk.d wk.a, wk.c, wk.d⟩ := by
  have hRole : (roleSelect i).toNat = 0 ∨ (roleSelect i).toNat = 1 ∨ (roleSelect i).toNat = 2 ∨
      (roleSelect i).toNat = 3 := by omega
  rw [← toNat_roleSelect]
  rcases hRole with h | h | h | h <;> simp only [stepWords, rolesOf, h] <;> rfl

/-- The accumulator's value in the form of the rules: the library's rotation of one sum. -/
theorem stepValue_eq (f : Word → Word → Word → Word) (mw : Vector Word 16) (i : BitVec 6) (acc x y z : Word) :
    stepValue f mw i acc x y z =
      x + (acc + f x y z + (addConst i + mw.toList.getD (msgIndex i).val 0#32)).rotateLeft (rotAmount i) := by
  obtain ⟨-, -, hAmount⟩ := rotAmount_spec i
  have hWord : mw.toList.getD (msgIndex i).val 0#32 = mw[msgIndex i] := by simp [List.getD]
  rw [stepValue, rotl32_eq_rotateLeft _ (by omega), hWord, BitVec.add_assoc (acc + f x y z)]

/-- The control word of STEP(n) decodes to the form of its round (30_encoding.md R79). -/
theorem decodeRCW_step (n : BitVec 6) :
    decodeRCW (0b10#2 ++ n) =
      if n.toNat < 16 then .stepF n else if n.toNat < 32 then .stepG n else if n.toNat < 48 then .stepH n
      else .stepI n := by
  have hWord : (0b10#2 ++ n).toNat = 0x80 + n.toNat := toNat_append_eq_add 0b10#2 n
  have hIndex : (0b10#2 ++ n).extractLsb' 0 6 = n := BitVec.extractLsb'_append_eq_right
  split_ifs <;> simp (disch := omega) only [decodeRCW, hIndex, if_neg, if_pos]

/-- Settles O34: each form is `stepWords` with its function, and the message word is the schedule's. -/
theorem stepWritesAccumulator : Obligations.StepWritesAccumulator := by
  refine ⟨controlEncodedAs_range 0x80 4 ?_, controlEncodedAs_range 0x90 4 ?_, controlEncodedAs_range 0xA0 4 ?_,
    controlEncodedAs_range 0xB0 4 ?_, decodeRCW_step, fun i n f g s h => ?_⟩
  iterate 4
    intro w
    fun_cases decodeRCW w <;> simp <;> omega
  have hStep : exec i s = .next { s with wk := stepWords f s.mw n s.wk } := by
    rcases h with ⟨rfl, -, -, rfl⟩ | ⟨rfl, -, -, -, rfl⟩ | ⟨rfl, -, -, -, rfl⟩ | ⟨rfl, -, -, rfl⟩ <;> rfl
  have hWord : (msgIndex n).val = g := by
    rw [val_msgIndex]
    rcases h with ⟨-, _, rfl, -⟩ | ⟨-, _, _, rfl, -⟩ | ⟨-, _, _, rfl, -⟩ | ⟨-, _, rfl, -⟩ <;> split_ifs <;> omega
  simp only [hStep, stepWords_eq, stepValue_eq, hWord]

/-! ### The micro-operations, one step of the machine at a time (R138) -/

/-- The control word of STEP(i) runs the generic step: the form's function is the round's. -/
theorem exec_step_control (i : BitVec 6) (s : State) : exec (decodeRCW (0b10#2 ++ i)) s = .next (stepOp i s) := by
  have hRound := toNat_roundOf i
  have hFun : roundFun (roundOf i) =
      if i.toNat < 16 then funF else if i.toNat < 32 then funG else if i.toNat < 48 then funH else funI := by
    rcases roundOf_cases i with h | h | h | h <;> simp (disch := omega) only [if_neg, if_pos] <;> funext x y z <;>
      simp only [roundFun, h]
  rw [decodeRCW_step, stepOp, hFun]
  split_ifs <;> rfl

theorem step_of_control {s t : State} {w : RcwWord} (hReset : ∀ rest, s.inputs ≠ .reset :: rest)
    (hWord : controlWord s.eseq = some w) (hExec : exec (decodeRCW w) s = .next t) : step s = .next (advance t) := by
  rw [step_sequenced hReset hWord, hExec, mapNext]

/-- The sequencer's position before its step `k`, or before ACCUM when the 64 steps are done. -/
def stepPosition (k : Nat) : Eseq := if k < 64 then .step (BitVec.ofNat 6 k) else .accum

/-- The state when a compression has run UNPACK and `k` steps. -/
def microState (s : State) (k : Nat) : State :=
  { runSteps (List.range k) (unpackOp { s with eseq := .unpack }) with eseq := stepPosition k }

theorem microState_inputs (s : State) (k : Nat) : (microState s k).inputs = s.inputs := by
  rw [microState, runSteps_eq, unpackOp]

theorem microState_not_reset {s : State} (hReset : ∀ rest, s.inputs ≠ .reset :: rest) (k : Nat) :
    ∀ rest, (microState s k).inputs ≠ .reset :: rest := by
  rwa [microState_inputs]

theorem step_unpack {s : State} (hReset : ∀ rest, s.inputs ≠ .reset :: rest) :
    step { s with eseq := .unpack } = .next (microState s 0) :=
  step_of_control (s := { s with eseq := .unpack }) (w := 0x00#8) hReset rfl rfl

/-- The sequencer goes on from step `k` to the position after it. -/
theorem advance_step {s : State} {k : Nat} (hk : k < 64) (h : s.eseq = .step (BitVec.ofNat 6 k)) :
    advance s = { s with eseq := stepPosition (k + 1) } := by
  have hLast : BitVec.ofNat 6 k = 63#6 ↔ k = 63 := by bv_omega
  simp only [advance, h, hLast, stepPosition]
  by_cases h63 : k = 63
  · rw [if_pos h63, if_neg (by omega)]
  · rw [if_neg h63, if_pos (by omega), BitVec.ofNat_add]

theorem step_microState {s : State} (hReset : ∀ rest, s.inputs ≠ .reset :: rest) {k : Nat} (hk : k < 64) :
    step (microState s k) = .next (microState s (k + 1)) := by
  have hPosition : (microState s k).eseq = .step (BitVec.ofNat 6 k) := if_pos hk
  have hStep : stepOp (BitVec.ofNat 6 k) (microState s k) =
      runSteps (List.range (k + 1)) (unpackOp { s with eseq := .unpack }) := by
    rw [List.range_succ, runSteps, List.foldl_append, microState, stepPosition, if_pos hk]
    rfl
  rw [step_of_control (microState_not_reset hReset k) (congrArg controlWord hPosition) (exec_step_control _ _),
    advance_step hk (by rw [stepOp_eseq, hPosition]), hStep, microState]

theorem step_microState_last {s : State} (hReset : ∀ rest, s.inputs ≠ .reset :: rest) :
    step (microState s 64) = .next (compress s) := by
  have hExec (t : State) : exec (decodeRCW 0x01#8) t = .next (accumOp t) := rfl
  have hPosition : (microState s 64).eseq = .accum := by rw [microState, stepPosition, if_neg (lt_irrefl 64)]
  have hCompress : compress s = retire (accumOp (microState s 64)) := by
    unfold compress microState
    generalize List.range 64 = is
    rfl
  have hAdvance (t : State) (h : t.eseq = .accum) : advance t = retire t := by rw [advance, h]
  have hWord : controlWord (microState s 64).eseq = some 0x01#8 := by rw [hPosition, controlWord]
  rw [step_of_control (microState_not_reset hReset 64) hWord (hExec _), hAdvance _ (by rw [accumOp_eseq, hPosition]),
    hCompress]

/-! ### Runs -/

/-- A run begins with a step. -/
theorem run_succ (M : Host.Core) (n : Nat) (s : M.State) :
    M.run (n + 1) s =
      match M.step s with
      | .next t => M.run n t
      | .fault r => .fault r
      | .refused r => .refused r := rfl

theorem run_of_step {M : Host.Core} {s t : M.State} (n : Nat) (h : M.step s = .next t) :
    M.run (n + 1) s = M.run n t := by
  rw [run_succ, h]

/-- A run goes on from where a shorter one ended. -/
theorem run_add {M : Host.Core} {n : Nat} {s t : M.State} (m : Nat) (h : M.run n s = .next t) :
    M.run (n + m) s = M.run m t := by
  induction n generalizing s with
  | zero => cases h; rw [Nat.zero_add]
  | succ n ih =>
    rw [run_succ] at h
    rw [Nat.succ_add, Nat.succ_eq_add_one, run_succ]
    cases hStep : M.step s with
    | next u => exact ih (by simpa [hStep] using h)
    | fault r => simp [hStep] at h
    | refused r => simp [hStep] at h

/-- A compression after UNPACK and `k` steps of the machine. -/
theorem run_microState {s : State} (hReset : ∀ rest, s.inputs ≠ .reset :: rest) {k : Nat} (hk : k ≤ 64) :
    Host.Core.run core (k + 1) { s with eseq := .unpack } = .next (microState s k) := by
  induction k with
  | zero => exact run_of_step (M := core) 0 (step_unpack hReset)
  | succ k ih => exact (run_add 1 (ih (by omega))).trans (run_of_step (M := core) 0 (step_microState hReset hk))

/-- The control word the sequencer issues after UNPACK and `k` steps. -/
theorem controlWord_stepPosition {k : Nat} (hk : k ≤ 64) :
    controlWord (stepPosition k) = some (if k + 1 < 65 then BitVec.ofNat 8 (0x80 + k) else 0x01#8) := by
  by_cases h : k < 64
  · have hWord : (0b10#2 ++ BitVec.ofNat 6 k).toNat = 0x80 + (BitVec.ofNat 6 k).toNat := toNat_append_eq_add ..
    rw [stepPosition, if_pos h, if_pos (by omega), controlWord]
    exact congrArg some (BitVec.eq_of_toNat_eq (by simp at hWord ⊢; omega))
  · rw [stepPosition, if_neg h, if_neg (by omega), controlWord]

/-- Settles O40: UNPACK leads to `microState s 0`, each STEP to the next `microState`, and ACCUM from the last of them to
what COMPRESS leaves; what that is says `compress_eq`. -/
theorem compressionIsItsMicroOps : Obligations.CompressionIsItsMicroOps := by
  intro s hReset
  refine ⟨?_, fun n hn => ?_, by simp⟩
  · exact (run_add 1 (run_microState hReset le_rfl)).trans (run_of_step (M := core) 0 (step_microState_last hReset))
  · cases n with
    | zero => exact ⟨_, rfl, rfl⟩
    | succ k =>
      refine ⟨_, run_microState hReset (by omega), ?_⟩
      rw [if_neg k.succ_ne_zero, Nat.add_sub_cancel]
      exact controlWord_stepPosition (by omega)

/-! ### The rotating formulation (R142) -/

/-- The registers in the order of their roles: accumulator, `x`, `y`, `z`. -/
def byRole (r : Roles) (wk : Quad) : Quad := ⟨wk.get r.acc, wk.get r.x, wk.get r.y, wk.get r.z⟩

/-- The next step's roles are this one's, moved on by one register. -/
theorem rolesOf_succ : ∀ r : BitVec 2,
    rolesOf (r + 1#2) = ⟨(rolesOf r).z, (rolesOf r).acc, (rolesOf r).x, (rolesOf r).y⟩ := by decide

/-- A fixed-role step seen through the roles is a rotating step. -/
theorem byRole_stepPure (mw : Vector Word 16) (i : BitVec 6) (wk : Quad) :
    byRole (rolesOf (roleSelect i + 1#2)) (stepPure mw i wk) = rotatingStep mw i (byRole (rolesOf (roleSelect i)) wk) := by
  rw [rolesOf_succ, stepPure, stepWords]
  generalize roleSelect i = r
  fun_cases rolesOf r <;> rfl

theorem rotatingRounds_eq (mw : Vector Word 16) (n : Nat) (st : Quad) :
    rotatingRounds mw n st = byRole (rolesOf (BitVec.ofNat 2 n))
      ((List.range n).foldl (fun wk i => stepPure mw (BitVec.ofNat 6 i) wk) st) := by
  induction n with
  | zero => rfl
  | succ n ih =>
    have hRole : roleSelect (BitVec.ofNat 6 n) = BitVec.ofNat 2 n :=
      BitVec.eq_of_toNat_eq (by rw [toNat_roleSelect]; simp)
    rw [rotatingRounds, List.range_succ, List.foldl_append, List.foldl_append, ← rotatingRounds, ih, ← hRole]
    simp only [List.foldl_cons, List.foldl_nil]
    rw [← byRole_stepPure, hRole, BitVec.ofNat_add]

/-- Settles O41: after every fourth step each register is back in its own role. -/
theorem rotatingFormAgrees : Obligations.RotatingFormAgrees := by
  intro mw st
  have hFourth (mw : Vector Word 16) (n : Nat) : rotatingRounds mw (4 * n) st =
      (List.range (4 * n)).foldl (fun wk i => stepPure mw (BitVec.ofNat 6 i) wk) st := by
    have hRole : BitVec.ofNat 2 (4 * n) = 0#2 := BitVec.eq_of_toNat_eq (by simp)
    rw [rotatingRounds_eq, hRole]
    rfl
  refine ⟨fun n _ => hFourth mw n, fun block => ?_⟩
  rw [compressBlock, roundsPure, hFourth _ 16]

end Sys2Proof.Machine
end

