-- ==== Sys2Proof/Proofs/Constants.lean ====
section
/-! PROOFS. The additive constants are the digits of the sines (41_compression.md R129). `exp(i)` is approximated by a Gaussian
integer over `16!` (its Taylor polynomial), `exp(i)^n` by that number's `n`-th power, and `sin n` is the imaginary part. -/

namespace Sys2Proof.Machine

/-- Powers of two numbers of the unit disc are as near as `n` times the numbers. -/
theorem norm_pow_sub_pow_le {a b : ℂ} (ha : ‖a‖ ≤ 1) (hb : ‖b‖ ≤ 1) (n : ℕ) : ‖a ^ n - b ^ n‖ ≤ n * ‖a - b‖ := by
  induction n with
  | zero => simp
  | succ n ih =>
    have hSplit : a ^ (n + 1) - b ^ (n + 1) = a * (a ^ n - b ^ n) + (a - b) * b ^ n := by ring
    calc ‖a ^ (n + 1) - b ^ (n + 1)‖ ≤ ‖a‖ * ‖a ^ n - b ^ n‖ + ‖a - b‖ * ‖b‖ ^ n := by
          rw [hSplit]
          simpa using norm_add_le (a * (a ^ n - b ^ n)) ((a - b) * b ^ n)
      _ ≤ 1 * (n * ‖a - b‖) + ‖a - b‖ * 1 := by
          gcongr
          exact pow_le_one₀ (norm_nonneg b) hb
      _ = (n + 1 : ℕ) * ‖a - b‖ := by push_cast; ring

/-- `16!` times the Taylor polynomial of degree 16 of the exponential, at the imaginary unit. -/
def taylor : GaussianInt := ⟨11304631621681, 17605920611984⟩

/-- `16!`. -/
def taylorDen : ℕ := 20922789888000

theorem taylor_eq_sum :
    (taylor : ℂ) / taylorDen = ∑ m ∈ Finset.range 17, Complex.I ^ m / (m.factorial : ℂ) := by
  rw [taylor, taylorDen, GaussianInt.toComplex_def']
  simp only [Finset.sum_range_succ, Finset.sum_range_zero, pow_succ, pow_zero, one_mul, Complex.I_mul_I, neg_mul,
    neg_neg, Nat.factorial]
  push_cast
  ring

theorem norm_exp_I_sub_taylor : ‖Complex.exp Complex.I - (taylor : ℂ) / taylorDen‖ ≤ 1 / 10 ^ 14 := by
  have h := Complex.exp_bound (x := Complex.I) (by simp) (n := 17) (by norm_num)
  rw [← taylor_eq_sum] at h
  refine h.trans ?_
  norm_num [Nat.factorial]

theorem norm_taylor_le : ‖(taylor : ℂ) / taylorDen‖ ≤ 1 := by
  rw [norm_div]
  refine div_le_one_of_le₀ ?_ (norm_nonneg _)
  rw [← sq_le_sq₀ (norm_nonneg _) (norm_nonneg _), Complex.sq_norm, Complex.normSq_apply]
  simp [taylor, taylorDen]
  norm_num

/-- The imaginary part of the `n`-th power, which approximates the sine of `n`. -/
noncomputable def taylorSin (n : ℕ) : ℝ := (taylor ^ n).im / taylorDen ^ n

theorem abs_sin_sub_taylorSin_le (n : ℕ) : |Real.sin n - taylorSin n| ≤ n / 10 ^ 14 := by
  have hSin : Real.sin n = (Complex.exp Complex.I ^ n).im := by
    rw [← Complex.exp_nat_mul, ← Complex.ofReal_natCast, Complex.exp_ofReal_mul_I_im]
  have hPow : taylorSin n = (((taylor : ℂ) / taylorDen) ^ n).im := by
    rw [taylorSin, GaussianInt.intCast_im, map_pow, div_pow, ← Nat.cast_pow, ← Nat.cast_pow, ← Complex.ofReal_natCast,
      Complex.div_ofReal_im]
  have hExp : ‖Complex.exp Complex.I‖ ≤ 1 := by simp [Complex.norm_exp]
  rw [hSin, hPow, ← Complex.sub_im]
  calc _ ≤ ‖Complex.exp Complex.I ^ n - ((taylor : ℂ) / taylorDen) ^ n‖ := Complex.abs_im_le_norm _
    _ ≤ n * ‖Complex.exp Complex.I - (taylor : ℂ) / taylorDen‖ := norm_pow_sub_pow_le hExp norm_taylor_le n
    _ ≤ n * (1 / 10 ^ 14) := by gcongr; exact norm_exp_I_sub_taylor
    _ = n / 10 ^ 14 := by ring

/-- The imaginary part of the power for step `i` lies between the constant and its successor, with room for the error: a
comparison of integers, computed for each of the 64 steps. -/
theorem addConst_le_im : ∀ i : BitVec 6,
    ((addConst i).toNat * 10 ^ 14 + 2 ^ 38) * taylorDen ^ (i.toNat + 1) ≤
        2 ^ 32 * 10 ^ 14 * (taylor ^ (i.toNat + 1)).im.natAbs ∧
      2 ^ 32 * 10 ^ 14 * (taylor ^ (i.toNat + 1)).im.natAbs + 2 ^ 38 * taylorDen ^ (i.toNat + 1) <
        ((addConst i).toNat + 1) * 10 ^ 14 * taylorDen ^ (i.toNat + 1) := by
  decide +kernel

theorem addConst_le_taylorSin (i : BitVec 6) :
    ((addConst i).toNat : ℝ) * 10 ^ 14 + 2 ^ 38 ≤ 2 ^ 32 * 10 ^ 14 * |taylorSin (i.toNat + 1)| ∧
      2 ^ 32 * 10 ^ 14 * |taylorSin (i.toNat + 1)| + 2 ^ 38 < ((addConst i).toNat + 1) * 10 ^ 14 := by
  have hDen : (0 : ℝ) < taylorDen ^ (i.toNat + 1) := by simp [taylorDen]
  have hAbs : |taylorSin (i.toNat + 1)| = ((taylor ^ (i.toNat + 1)).im.natAbs : ℝ) / taylorDen ^ (i.toNat + 1) := by
    rw [taylorSin, abs_div, abs_of_pos hDen, Nat.cast_natAbs, Int.cast_abs]
  obtain ⟨hLo, hHi⟩ := addConst_le_im i
  rw [hAbs, mul_div_assoc', le_div_iff₀ hDen, div_add' _ _ _ hDen.ne', div_lt_iff₀ hDen]
  exact ⟨mod_cast hLo, mod_cast hHi⟩

/-- Settles O39: the sine of `i + 1` is within `64 * 10⁻¹⁴` of `taylorSin`, which `addConst_le_taylorSin` places that far
inside the interval of the constant. -/
theorem constantsAreSines : Obligations.ConstantsAreSines := by
  intro i
  have hi : ((i.toNat + 1 : ℕ) : ℝ) ≤ 64 := mod_cast i.isLt
  obtain ⟨hLo, hHi⟩ := addConst_le_taylorSin i
  have hNear := (abs_abs_sub_abs_le _ _).trans (abs_sin_sub_taylorSin_le (i.toNat + 1))
  obtain ⟨hBelow, hAbove⟩ := abs_le.1 hNear
  rw [eq_comm, Int.floor_eq_iff]
  push_cast at *
  constructor <;> linarith

end Sys2Proof.Machine
end

