-- ==== Sys2Proof/Proofs/HostInterface.lean ====
section
/-! PROOFS. What a step takes from its inputs (42_driver.md R160, 70_reset_and_hazards.md R252), and the host's side of the
interface: the window's addresses and the pseudo-instructions (20_memory.md R51, 30_encoding.md R84). -/

namespace Sys2Proof.Machine

open Sys2Proof.Safety

/-! ### The step -/

/-- Settles O10: the cases of `nextWork`; a decoded instruction is well formed (`encodeOfDecode`). -/
theorem stepRunsDecoded : Obligations.StepRunsDecoded :=
  fun _ => ⟨fun v _ hIdle hInputs => ⟨(encode_decodeHT v).1, step_access hIdle hInputs⟩,
    fun w _ hIdle hInputs => ⟨(encode_decodeRCW w).1, step_control hIdle hInputs⟩,
    fun _ hWord hReset => step_sequenced hReset hWord, step_wait⟩

/-- Settles O13: the state of `resetEvent`, field by field. -/
theorem resetTakesPrecedence : Obligations.ResetTakesPrecedence :=
  fun _ rest hReset => ⟨resetEvent rest, step_reset hReset, rfl, rfl, rfl, rfl, rfl, rfl, rfl, rfl, rfl⟩

/-- The instruction an input stands for, if it stands for one. -/
def inputInstr (x : Input) : Option Instr :=
  match x with
  | .reset => none
  | .access v => some (decodeHT v)
  | .control w => some (decodeRCW w)

theorem step_presentInput {x : Input} {i : Instr} (s : State) (h : inputInstr x = some i) :
    step (presentInput x s) = exec i { s with eseq := .idle } := by
  cases x with
  | reset => cases h
  | access v => cases h; exact step_access rfl rfl
  | control w => cases h; exact step_control rfl rfl

/-- The low five bytes of a number are its low 39 bits as a transaction, unless bit 39 is set. -/
theorem decodeBytes_lowBytes_five {w : Nat} {i : Instr} (h : decodeBytes (lowBytes 5 w) = .instr i) :
    i = decodeHT (BitVec.ofNat 39 w) := by
  have hWord : (BitVec.ofNat 8 (w / 256 / 256 / 256 / 256)).extractLsb' 0 7 ++ BitVec.ofNat 8 (w / 256 / 256 / 256) ++
      BitVec.ofNat 8 (w / 256 / 256) ++ BitVec.ofNat 8 (w / 256) ++ BitVec.ofNat 8 w = BitVec.ofNat 39 w := by
    refine BitVec.eq_of_toNat_eq ?_
    simp only [toNat_append_eq_add, toNat_extractLsb', BitVec.toNat_ofNat]
    omega
  simp only [lowBytes, decodeBytes] at h
  split at h
  · cases h
  · cases h
    exact congrArg decodeHT hWord

/-- A table word stands for the instruction of the input that presents it. -/
theorem inputInstr_tableInput {nbits w : Nat} {i : Instr} (h : decodeTableWord nbits w = some i) :
    inputInstr (tableInput nbits w) = some i := by
  have hDecode : decodeBytes (lowBytes (tableBytes nbits) w) = .instr i := by
    unfold decodeTableWord at h
    split at h
    · split at h
      · cases h; assumption
      · cases h
    · cases h
  rw [tableInput]
  by_cases hn : nbits ≤ 8
  · have hOne : tableBytes nbits = 1 := if_pos hn
    rw [hOne] at hDecode
    cases hDecode
    rw [if_pos hOne]
    rfl
  · have hFive : tableBytes nbits = 5 := if_neg hn
    rw [hFive] at hDecode
    rw [if_neg (by rw [hFive]; decide), decodeBytes_lowBytes_five hDecode]
    rfl

/-- Settles O11: the input presented stands for the word's instruction, and the idle sequencer takes it. -/
theorem presentedWordRuns : Obligations.PresentedWordRuns :=
  fun s _ _ _ h => step_presentInput s (inputInstr_tableInput h)

/-! ### The window's addresses -/

theorem widxAt_windowAddress (x : Widx) : widxAt (windowAddress x) = some x := by
  have hx := x.isLt
  have hOffset : windowAddress x - Config.md5Base = 4 * x.toNat := Nat.add_sub_cancel_left ..
  have hAddress : windowAddress x = Config.md5Base + 4 * x.toNat := rfl
  rw [widxAt, if_pos ⟨by omega, by omega, by omega⟩, hOffset, Nat.mul_div_cancel_left _ (by decide), BitVec.ofNat_toNat,
    BitVec.setWidth_eq]

theorem eq_windowAddress_of_widxAt {a : Nat} {x : Widx} (h : widxAt a = some x) : a = windowAddress x := by
  unfold widxAt at h
  split at h
  · cases h
    simp only [windowAddress, byteOffset, BitVec.toNat_ofNat]
    omega
  · cases h

/-- Settles O9: offsets below 256 that are multiples of four and word indices are the same numbers. -/
theorem windowAddresses : Obligations.WindowAddresses := by
  refine ⟨fun x => ⟨rfl, ?_, widxAt_windowAddress x⟩, fun _ _ => eq_windowAddress_of_widxAt⟩
  have hx := x.isLt
  simp only [windowAddress, byteOffset]
  omega

/-! ### The pseudo-instructions -/

theorem decodeHT_wr (r : RegName) (v : Word) : decodeHT (wr r v) = decodeWrite (widxOf r) v :=
  decodeHT_htWord 1#1 (widxOf r) v

theorem decodeHT_wr_dataW (b0 b1 b2 b3 : Byte) : decodeHT (wr .dataW (le32 b0 b1 b2 b3)) = .dataW b0 b1 b2 b3 :=
  (decodeHT_wr ..).trans (decodeWrite_dataW b0 b1 b2 b3)

theorem decodeHT_wr_dataB (b : Byte) : decodeHT (wr .dataB (b.setWidth 32)) = .dataB b 0#24 := by
  have hWord : b.setWidth 32 = 0#24 ++ b := by
    refine BitVec.eq_of_toNat_eq ?_
    rw [toNat_append_eq_add, BitVec.toNat_setWidth_of_le (by decide)]
    simp
  rw [decodeHT_wr, hWord]
  exact decodeWrite_dataB b 0#24

theorem messageOf_cons (w : HtWord) (ws : List HtWord) :
    messageOf (w :: ws) = messageBytes (decodeHT w) ++ messageOf ws := List.flatMap_cons

/-- PUTS hands over its bytes, and nothing but data writes. -/
theorem messageOf_putBytes (bs : List Byte) : messageOf (putBytes bs) = bs := by
  fun_induction putBytes bs with
  | case1 b0 b1 b2 b3 rest ih =>
    rw [messageOf_cons, decodeHT_wr_dataW, ih]
    rfl
  | case2 rest =>
    simp [messageOf, List.flatMap_map, decodeHT_wr_dataB, messageBytes]

theorem isData_of_mem_putBytes (bs : List Byte) : ∀ w ∈ putBytes bs, isData (decodeHT w) = true := by
  fun_induction putBytes bs with
  | case1 b0 b1 b2 b3 rest ih =>
    rw [List.forall_mem_cons, decodeHT_wr_dataW]
    exact ⟨rfl, ih⟩
  | case2 rest => simp [decodeHT_wr_dataB, isData]

theorem mayStandInMessage_of_isData {i : Instr} (h : isData i = true) : mayStandInMessage i = true := by
  cases i with
  | dataW | dataB => rfl
  | _ => cases h

theorem isRead_rd (r : RegName) : isRead (decodeHT (rd r)) = true := by
  rw [rd, decodeHT_htWord]
  exact isRead_decodeRead _ _

/-- The registers that GETDIG and then GETHEX read. -/
def digestRegs : List RegName :=
  [.digest 0#2, .digest 1#2, .digest 2#2, .digest 3#2] ++ (List.range 8).map fun k => .hex (BitVec.ofNat 3 k)

theorem getDig_getHex : expand .getDig ++ expand .getHex = digestRegs.map rd := rfl

/-- Settles O55: PUTS is data writes of its bytes in order, and GETDIG and GETHEX are reads by register name. -/
theorem putsHandsOverBytes : Obligations.PutsHandsOverBytes :=
  fun bs => ⟨messageOf_putBytes bs, fun w hw => mayStandInMessage_of_isData (isData_of_mem_putBytes bs w hw),
    wr .cmd 0x1#32, wr .cmd 0x2#32, rfl, rfl, rfl, by
      rw [getDig_getHex, List.forall_mem_map]
      exact fun r _ => isRead_rd r⟩

end Sys2Proof.Machine
end

