-- ==== Sys2Proof/Proofs/HexFormat.lean ====
section
/-! PROOFS. The hex output formatter (43_hex_encoder.md) and the reads' lack of side effects (20_memory.md R59). -/

namespace Sys2Proof.Machine

open Sys2Proof.Safety

/-! ### Characters -/

/-- A field of a field is a field. -/
theorem extractLsb'_extractLsb' {w n : Nat} (v : BitVec w) (lo a m : Nat) (h : a + m ≤ n) :
    (v.extractLsb' lo n).extractLsb' a m = v.extractLsb' (lo + a) m := by
  refine BitVec.eq_of_getLsbD_eq fun k hk => ?_
  rw [BitVec.getLsbD_extractLsb', BitVec.getLsbD_extractLsb', BitVec.getLsbD_extractLsb',
    decide_eq_true (by omega : a + k < n), Bool.true_and, Nat.add_assoc]

/-- The two characters of each byte of a word, its least significant byte first. -/
theorem getElem?_hexWord (v : Word) (k : Fin 4) :
    (hexWord v)[2 * k.val]? = some (hexChar (v.extractLsb' (8 * k.val + 4) 4)) ∧
      (hexWord v)[2 * k.val + 1]? = some (hexChar (v.extractLsb' (8 * k.val) 4)) := by
  have hByte (lo : Nat) : hexByte (v.extractLsb' lo 8) =
      [hexChar (v.extractLsb' (lo + 4) 4), hexChar (v.extractLsb' lo 4)] := by
    rw [hexByte, extractLsb'_extractLsb' v lo 4 4 (by decide), extractLsb'_extractLsb' v lo 0 4 (by decide), Nat.add_zero lo]
  have hWord : hexWord v = hexByte (v.extractLsb' 0 8) ++ (hexByte (v.extractLsb' 8 8) ++
      (hexByte (v.extractLsb' 16 8) ++ (hexByte (v.extractLsb' 24 8) ++ []))) := rfl
  rw [hWord, hByte, hByte, hByte, hByte]
  fin_cases k <;> exact ⟨rfl, rfl⟩

@[simp] theorem length_hexWord (v : Word) : (hexWord v).length = 8 := rfl

/-- The words of the string stand one after another, eight characters each. -/
theorem getElem?_hexChars (st : Quad) (w : Fin 4) {j : Nat} (hj : j < 8) :
    (hexChars st)[8 * w.val + j]? =
      (hexWord (match w.val with | 0 => st.a | 1 => st.b | 2 => st.c | _ => st.d))[j]? := by
  have hChars : hexChars st = hexWord st.a ++ (hexWord st.b ++ (hexWord st.c ++ (hexWord st.d ++ []))) := rfl
  have hSkip (v : Word) (cs : List Byte) (n : Nat) : (hexWord v ++ cs)[n + 8]? = cs[n]? := by
    rw [List.getElem?_append_right (by simp), length_hexWord, Nat.add_sub_cancel]
  have hHere (v : Word) (cs : List Byte) : (hexWord v ++ cs)[j]? = (hexWord v)[j]? := List.getElem?_append_left hj
  have hIndex (n : Nat) : 8 * n + j = j + 8 * n := Nat.add_comm ..
  rw [hChars, hIndex]
  fin_cases w
  · exact hHere ..
  · exact (hSkip _ _ _).trans (hHere ..)
  · exact (hSkip _ _ (j + 8)).trans ((hSkip _ _ _).trans (hHere ..))
  · exact (hSkip _ _ (j + 8 + 8)).trans ((hSkip _ _ (j + 8)).trans ((hSkip _ _ _).trans (hHere ..)))

/-- Settles O27: the character's word, then its byte and nibble. -/
theorem hexStringOrder : Obligations.HexStringOrder := by
  intro st w k
  obtain ⟨hHigh, hLow⟩ := getElem?_hexWord (match w.val with | 0 => st.a | 1 => st.b | 2 => st.c | _ => st.d) k
  exact ⟨(getElem?_hexChars st w (by omega)).trans hHigh, (getElem?_hexChars st w (by omega)).trans hLow⟩

theorem toNat_hexChar (n : BitVec 4) :
    (n.toNat ≤ 9 → (hexChar n).toNat = 0x30 + n.toNat) ∧
      (10 ≤ n.toNat → (hexChar n).toNat = 0x61 + (n.toNat - 10)) := by
  have hn := n.isLt
  refine ⟨fun h => ?_, fun h => ?_⟩
  · rw [hexChar, if_pos h, BitVec.toNat_ofNat]
    omega
  · rw [hexChar, if_neg (by omega), BitVec.toNat_ofNat]
    omega

theorem hexChar_lowercase (n : BitVec 4) :
    (0x30 ≤ (hexChar n).toNat ∧ (hexChar n).toNat ≤ 0x39) ∨ (0x61 ≤ (hexChar n).toNat ∧ (hexChar n).toNat ≤ 0x66) := by
  have hn := n.isLt
  obtain ⟨hDigit, hLetter⟩ := toNat_hexChar n
  omega

theorem exists_hexChar_of_mem {st : Quad} {c : Byte} (h : c ∈ hexChars st) : ∃ n, c = hexChar n := by
  simp only [hexChars, hexWord, List.mem_flatMap] at h
  obtain ⟨w, -, b, -, hc⟩ := h
  simp only [hexByte, List.mem_cons, List.not_mem_nil, or_false] at hc
  exact hc.elim (⟨_, ·⟩) (⟨_, ·⟩)

/-- Settles O28: every character of the string is some nibble's. -/
theorem hexIsLowercase : Obligations.HexIsLowercase := by
  refine ⟨toNat_hexChar, fun st => ⟨rfl, fun c hc => ?_⟩⟩
  obtain ⟨n, rfl⟩ := exists_hexChar_of_mem hc
  exact hexChar_lowercase n

/-! ### The registers HEX0 to HEX7 -/

/-- HEXk holds the characters `4k` to `4k + 3`, the first in the lowest byte. -/
theorem hexReg_of_chars {st : Quad} {k : BitVec 3} {n : Nat} {c0 c1 c2 c3 : Byte} (hk : 4 * k.toNat = n)
    (h0 : (hexChars st)[n]? = some c0) (h1 : (hexChars st)[n + 1]? = some c1) (h2 : (hexChars st)[n + 2]? = some c2)
    (h3 : (hexChars st)[n + 3]? = some c3) : hexReg st k = le32 c0 c1 c2 c3 := by
  subst hk
  simp [hexReg, List.getD, h0, h1, h2, h3]

/-- Settles O26: HEX(2w) begins at character `8w` of the string and HEX(2w+1) at `8w + 4`; what stands there says
`hexStringOrder`. -/
theorem readHexRendersLiveState : Obligations.ReadHexRendersLiveState := by
  refine ⟨rdHex_encoding, fun w d s => ?_⟩
  have hIndex (b : BitVec 1) : 4 * (w ++ b).toNat = 8 * w.toNat + 4 * b.toNat := by
    rw [toNat_append_eq_add]
    omega
  have hChars := hexStringOrder s.st ⟨w.toNat, w.isLt⟩
  obtain ⟨h0, h1⟩ := hChars 0
  obtain ⟨h2, h3⟩ := hChars 1
  obtain ⟨h4, h5⟩ := hChars 2
  obtain ⟨h6, h7⟩ := hChars 3
  exact ⟨congrArg (fun v => Host.Outcome.next (respond v s)) (hexReg_of_chars (hIndex 0#1) h0 h1 h2 h3),
    congrArg (fun v => Host.Outcome.next (respond v s)) (hexReg_of_chars (hIndex 1#1) h4 h5 h6 h7)⟩

/-! ### Reads -/

/-- Settles O31: a read returns a value that does not depend on the value returned before. -/
theorem readsHaveNoSideEffects : Obligations.ReadsHaveNoSideEffects := by
  intro i s h
  cases i with
  | rdStatus | rdLenLo | rdLenHi | rdDigest | rdHex | rdCmd | rdDataW | rdDataB | rdRsvd6to7 | rdRsvd12to15
  | rdRsvd24to31 | rdRsvd32to63 => exact ⟨_, rfl, fun _ => rfl⟩
  | _ => cases h

end Sys2Proof.Machine
end

