-- ==== Sys2Proof/Proofs/Accounts.lean ====
section
/-! PROOFS. The driver's accounts: one error an access at most (60_exceptions.md R225), the count of bytes (10_state.md R26),
the count of compressions (42_driver.md R170), and what every step keeps (20_memory.md R53; 10_state.md R27, R28). -/

namespace Sys2Proof.Machine

open Sys2Proof.Safety

/-! ### Errors -/

/-- The condition under which an instruction other than INIT sets an error's flag (60_exceptions.md R222 to R224). -/
def Raises (e : ErrorKind) (i : Instr) (s : State) : Prop :=
  match e with
  | .len => isData i = true ∧ s.phase = .absorb ∧ maxLen < s.cnt.toNat + (messageBytes i).length
  | .seq => (isData i = true ∨ isFinal i = true) ∧ s.phase ≠ .absorb
  | .cmd => isReservedCmd i = true

theorem errorFlag_exec_iff {i : Instr} {s t : State} (h : exec i s = .next t) (hInit : isInit i = false)
    (e : ErrorKind) : errorFlag e t = true ↔ errorFlag e s = true ∨ Raises e i s := by
  obtain ⟨hLen, hSeq, hCmd⟩ := exec_flags h hInit
  cases e with
  | len => exact hLen
  | seq => exact hSeq
  | cmd => exact hCmd

theorem not_data_of_isReservedCmd {i : Instr} (h : isReservedCmd i = true) : isData i = false ∧ isFinal i = false := by
  cases i with
  | cmdRsvd3 | cmdRsvd4to7 | cmdRsvd8toF => exact ⟨rfl, rfl⟩
  | _ => cases h

/-- The conditions exclude each other: by the phase, or by the kind of the instruction. -/
theorem Raises.unique {e e' : ErrorKind} {i : Instr} {s : State} (h : Raises e i s) (h' : Raises e' i s) : e = e' := by
  have hKinds (hCmd : isReservedCmd i = true) : ¬(isData i = true ∨ isFinal i = true) := by
    simp [not_data_of_isReservedCmd hCmd]
  cases e <;> cases e'
  case len.len | seq.seq | cmd.cmd => rfl
  case len.seq => exact absurd h.2.1 h'.2
  case seq.len => exact absurd h'.2.1 h.2
  case len.cmd => exact absurd (.inl h.1) (hKinds h')
  case cmd.len => exact absurd (.inl h'.1) (hKinds h)
  case seq.cmd => exact absurd h.1 (hKinds h')
  case cmd.seq => exact absurd h'.1 (hKinds h)

/-- Settles O46: INIT leaves no flag, and the conditions of the three flags exclude each other. -/
theorem atMostOneErrorPerAccess : Obligations.AtMostOneErrorPerAccess := by
  intro i s t h e e' hs ht hs' ht'
  cases hInit : isInit i with
  | true =>
    obtain ⟨hLen, hSeq, hCmd⟩ := exec_init_clears_flags h hInit
    have hClear : errorFlag e t = false := by
      cases e
      exacts [hLen, hSeq, hCmd]
    exact absurd (hClear.symm.trans ht) Bool.false_ne_true
  | false =>
    have hRaised {e : ErrorKind} (hs : errorFlag e s = false) (ht : errorFlag e t = true) : Raises e i s :=
      ((errorFlag_exec_iff h hInit e).1 ht).resolve_left (by simp [hs])
    exact (hRaised hs ht).unique (hRaised hs' ht')

/-! ### The count of bytes -/

theorem cnt_le_maxLen (s : State) : s.cnt.toNat ≤ maxLen := Nat.le_sub_one_of_lt s.cnt.isLt

theorem finalOp_cnt (s : State) : (finalOp s).cnt = s.cnt := by
  obtain ⟨hCnt, -⟩ := padAndCompress_frame s
  rcases finalOp_cases s with ⟨-, e⟩ | ⟨-, e⟩
  · rw [e, raiseError_cnt]
  · rw [e, hCnt]

theorem dataWrite_accepted {bs : List Byte} {s : State} (hp : s.phase = .absorb)
    (hc : s.cnt.toNat + bs.length ≤ maxLen) : dataWrite bs s = absorbBytes bs s := by
  rcases dataWrite_cases bs s with ⟨h, -⟩ | ⟨-, h, -⟩ | ⟨-, -, e⟩
  · exact absurd hp h
  · exact absurd hc h.not_ge
  · exact e

/-- A refused data write changes the flags and the phase only. -/
theorem dataWrite_refused {bs : List Byte} {s : State} (h : ¬(s.phase = .absorb ∧ s.cnt.toNat + bs.length ≤ maxLen)) :
    dataWrite bs s = raiseError .seq s ∨ dataWrite bs s = { raiseError .len s with phase := .failed } := by
  rcases dataWrite_cases bs s with ⟨-, e⟩ | ⟨-, -, e⟩ | ⟨hp, hc, -⟩
  · exact .inl e
  · exact .inr e
  · exact absurd ⟨hp, hc⟩ h

theorem dataWrite_refused_cnt {bs : List Byte} {s : State}
    (h : ¬(s.phase = .absorb ∧ s.cnt.toNat + bs.length ≤ maxLen)) : (dataWrite bs s).cnt = s.cnt := by
  rcases dataWrite_refused h with e | e <;> simp [e]

/-- Settles O48: by the instruction's kind. -/
theorem countNeverWraps : Obligations.CountNeverWraps := by
  intro i s t h
  refine ⟨cnt_le_maxLen s, cnt_le_maxLen t, ?_⟩
  rcases exec_cases h with ⟨hi, -, hd, -, rfl⟩ | ⟨hi, -, hd, -, rfl⟩ | ⟨hi, -, hd, -, rfl⟩ | ⟨hi, -, hd, -, rfl⟩ |
    ⟨hi, -, hd, -, _, _, _, _, rfl⟩
  · simp [hi, hd]
  · simp [hi, hd, finalOp_cnt]
  · refine ⟨by simp [hi], fun _ hp hc => ?_, fun _ hRefused => ?_⟩
    · rw [noResponse_cnt, dataWrite_accepted hp hc, absorbBytes_cnt_toNat _ hc]
    · exact dataWrite_refused_cnt fun hAccepted => hRefused ⟨hd, hAccepted⟩
  · simp [hi, hd]
  · simp [hi, hd]

/-! ### The count of compressions -/

/-- A byte that completes a block is one at which the number of whole blocks goes up. -/
theorem absorbByte_compressions {s : State} (b : Byte) (h : s.cnt.toNat < maxLen) :
    (absorbByte s b).compressions = s.compressions + ((absorbByte s b).cnt.toNat / 64 - s.cnt.toNat / 64) := by
  have hCnt := absorbByte_cnt_toNat b h
  rw [hCnt]
  rw [absorbByte_cnt] at hCnt
  rcases absorbByte_cases s b with ⟨hEnd, e⟩ | ⟨hEnd, e⟩
  · have hCount : (absorbByte s b).compressions = s.compressions + 1 := by rw [e, compress_compressions, withByte]
    omega
  · have hCount : (absorbByte s b).compressions = s.compressions := by rw [e, withByte]
    omega

theorem absorbBytes_compressions (bs : List Byte) {s : State} (h : s.cnt.toNat + bs.length ≤ maxLen) :
    (absorbBytes bs s).compressions =
      s.compressions + ((absorbBytes bs s).cnt.toNat / 64 - s.cnt.toNat / 64) := by
  induction bs generalizing s with
  | nil => simp
  | cons b bs ih =>
    rw [List.length_cons] at h
    have hByte := absorbByte_compressions b (s := s) (by omega)
    have hCnt := absorbByte_cnt_toNat b (s := s) (by omega)
    have hRest := ih (s := absorbByte s b) (by omega)
    have hGrows := absorbBytes_cnt_toNat bs (s := absorbByte s b) (by omega)
    rw [absorbBytes_cons]
    omega

theorem padAndCompress_compressions (s : State) :
    (padAndCompress s).compressions = s.compressions + if s.cnt.toNat % 64 ≤ 55 then 1 else 2 := by
  rcases padAndCompress_cases s with ⟨ht, e⟩ | ⟨ht, e⟩
  · simp [e, padLast_eq, withPadMark, ht]
  · simp [e, padLast_eq, withPadMark, ht.not_ge]

/-- Every access answers with a next state (70_reset_and_hazards.md R257). -/
theorem exec_access {i : Instr} (s : State) (h : isAccess i = true) : ∃ t, exec i s = .next t := by
  cases i
  case unpack | accum | stepF | stepG | stepH | stepI | rcwRsvd02to03 | rcwRsvd04to07 | rcwRsvd08to0F | rcwRsvd10to1F |
    rcwRsvd20to3F | rcwRsvd40to7F | rcwRsvdC0toFF => cases h
  all_goals exact ⟨_, rfl⟩

theorem length_messageBytes_le (i : Instr) : (messageBytes i).length ≤ 4 := by
  cases i <;> simp [messageBytes]

theorem finalOp_accounts {s : State} (hIdle : s.eseq = .idle) :
    (finalOp s).eseq = .idle ∧ (finalOp s).inputs = s.inputs ∧ (finalOp s).compressions = s.compressions +
      if s.phase = .absorb then (if s.cnt.toNat % 64 ≤ 55 then 1 else 2) else 0 := by
  obtain ⟨-, -, -, -, -, hEseq, hInputs, -⟩ := padAndCompress_frame s
  rcases finalOp_cases s with ⟨hp, e⟩ | ⟨hp, e⟩
  · simp [e, hp, hIdle]
  · simp [e, hp, hEseq, hInputs, padAndCompress_compressions]

theorem dataWrite_accounts (bs : List Byte) {s : State} (hIdle : s.eseq = .idle) :
    (dataWrite bs s).eseq = .idle ∧ (dataWrite bs s).inputs = s.inputs ∧
      (dataWrite bs s).compressions = s.compressions + ((dataWrite bs s).cnt.toNat / 64 - s.cnt.toNat / 64) ∧
      (dataWrite bs s).cnt.toNat ≤ s.cnt.toNat + bs.length := by
  obtain ⟨-, -, -, -, hInputs, -⟩ := absorbBytes_frame bs s
  rcases dataWrite_cases bs s with ⟨-, e⟩ | ⟨-, -, e⟩ | ⟨-, hc, e⟩
  · simp [e, hIdle]
  · simp [e, hIdle]
  · rw [e]
    exact ⟨absorbBytes_eseq bs hIdle, hInputs, absorbBytes_compressions bs hc, (absorbBytes_cnt_toNat bs hc).le⟩

/-- Settles O49: by the instruction's kind; a data write has at most four bytes, so at most one of them completes a block. -/
theorem everyAccessCompletes : Obligations.EveryAccessCompletes := by
  intro i s hAccess hIdle
  obtain ⟨t, h⟩ := exec_access s hAccess
  refine ⟨t, h, ?_⟩
  rcases exec_cases h with ⟨-, hf, hd, -, rfl⟩ | ⟨-, hf, hd, -, rfl⟩ | ⟨-, hf, hd, -, rfl⟩ | ⟨-, hf, hd, -, rfl⟩ |
    ⟨-, hf, hd, -, _, _, _, _, rfl⟩
  · simp [hf, hd, hIdle]
  · obtain ⟨hEseq, hInputs, hCount⟩ := finalOp_accounts hIdle
    have hBound : (finalOp s).compressions ≤ s.compressions + 2 := by rw [hCount]; split_ifs <;> omega
    refine ⟨hEseq, hInputs, hBound, by simp [hd], fun _ hp => ?_, by simp [hf]⟩
    rw [noResponse_compressions, hCount, if_pos hp]
  · obtain ⟨hEseq, hInputs, hCount, hCnt⟩ := dataWrite_accounts (messageBytes i) hIdle
    have hFour := length_messageBytes_le i
    have hBound : (dataWrite (messageBytes i) s).compressions ≤ s.compressions + 1 := by omega
    exact ⟨hEseq, hInputs, hBound.trans (by omega), fun _ => ⟨hCount, hBound⟩, by simp [hf], by simp [hd]⟩
  · simp [hf, hd, hIdle]
  · simp [hf, hd, hIdle]

/-! ### What every step keeps -/

/-- The sequencer moving on changes `ESEQ` and the model's count only. -/
theorem advance_eq (s : State) : ∃ e n, advance s = { s with eseq := e, compressions := n } := by
  unfold advance
  split
  · exact ⟨_, _, rfl⟩
  · exact ⟨_, _, rfl⟩
  · split <;> exact ⟨_, _, rfl⟩
  · exact ⟨_, _, rfl⟩

/-- What holds after reset, is kept by every instruction and does not depend on the inputs, the sequencer and the model's
count is kept by every step. -/
theorem step_keeps {P : State → Prop} {s t : State} (h : step s = .next t) (hs : P s)
    (hReset : ∀ w, P (resetEvent w)) (hExec : ∀ i s t, P s → exec i s = .next t → P t)
    (hFrame : ∀ s e ins n, P s → P { s with eseq := e, inputs := ins, compressions := n }) : P t := by
  rcases step_cases s with ⟨rest, -, e⟩ | ⟨w, -, e⟩ | ⟨v, rest, -, -, e⟩ | ⟨w, rest, -, -, e⟩ | ⟨-, -, e⟩
  · rw [e] at h; cases h; exact hReset rest
  · obtain ⟨u, hu, rfl⟩ := mapNext_eq_next (e ▸ h)
    obtain ⟨q, n, hAdvance⟩ := advance_eq u
    rw [hAdvance]
    exact hFrame u q u.inputs n (hExec _ _ _ hs hu)
  · exact hExec _ _ _ (hFrame s s.eseq rest s.compressions hs) (e ▸ h)
  · exact hExec _ _ _ (hFrame s s.eseq rest s.compressions hs) (e ▸ h)
  · rw [e] at h; cases h; exact hs

theorem exec_wf {i : Instr} {s t : State} (hs : s.buf.wf = true) (h : exec i s = .next t) : t.buf.wf = true := by
  rcases exec_cases h with ⟨-, -, -, -, rfl⟩ | ⟨-, -, -, -, rfl⟩ | ⟨-, -, -, -, rfl⟩ | ⟨-, -, -, -, rfl⟩ |
    ⟨-, -, -, -, _, _, _, _, rfl⟩
  · exact hs
  · exact finalOp_wf hs
  · exact dataWrite_wf _ hs
  · exact hs
  · exact hs

/-- Settles O50: reset's buffer is empty, and every instruction keeps the form. -/
theorem stepKeepsBufferCanonical : Obligations.StepKeepsBufferCanonical :=
  fun _ _ hs h => step_keeps h hs (fun _ => reset_buf_wf) (fun _ _ _ => exec_wf) fun _ _ _ _ hs => hs

theorem exec_phaseConsistent {i : Instr} {s t : State} (hs : PhaseConsistent s) (h : exec i s = .next t) :
    PhaseConsistent t := by
  obtain ⟨hLenIff, hSeqFalse⟩ := hs
  rcases exec_cases h with ⟨-, -, -, -, rfl⟩ | ⟨-, -, -, -, rfl⟩ | ⟨-, -, -, -, rfl⟩ | ⟨-, -, -, -, rfl⟩ |
    ⟨-, -, -, -, _, _, _, _, rfl⟩
  · simp [PhaseConsistent]
  · obtain ⟨hLen, -, ⟨hp, -, hPhase⟩ | ⟨hp, -, hPhase⟩⟩ := finalOp_driver s
    · simp [PhaseConsistent, hLen, hPhase, hLenIff, hp]
    · simp [PhaseConsistent, hLen, hPhase, hLenIff, hp]
  · obtain ⟨-, ⟨hp, hLen, -, hPhase⟩ | ⟨hp, -, hLen, -, hPhase⟩ | ⟨hp, -, hLen, hSeq, hPhase⟩⟩ :=
      dataWrite_driver (messageBytes i) s
    · simp [PhaseConsistent, hLen, hPhase, hLenIff, hp]
    · simp [PhaseConsistent, hLen, hPhase]
    · simp [PhaseConsistent, hLen, hPhase, hLenIff, hSeq, hSeqFalse hp]
  · simpa [PhaseConsistent] using ⟨hLenIff, hSeqFalse⟩
  · exact ⟨hLenIff, hSeqFalse⟩

/-- Settles O51: what an instruction sets and where the phase goes then, by its kind (`finalOp_driver`, `dataWrite_driver`). -/
theorem stepKeepsPhaseConsistent : Obligations.StepKeepsPhaseConsistent :=
  fun _ _ hs h => step_keeps h hs (fun _ => by simp [PhaseConsistent, State.reset]) (fun _ _ _ => exec_phaseConsistent)
    fun _ _ _ _ hs => hs

end Sys2Proof.Machine
end

