-- ==== Sys2Proof/Proofs/BlockBytes.lean ====
section
/-! PROOFS. The bytes of a message in the buffer: a word is its four bytes (42_driver.md R168, 20_memory.md R56), the length
field (40_padding.md R103), and the padded tail that FINAL compresses (40_padding.md R106, 42_driver.md R164). -/

namespace Sys2Proof.Machine

open Sys2Proof.Safety

/-! ### The length field -/

/-- Eight bytes of a word in order are its two halves. -/
theorem le32_bytes (bits : BitVec 64) (lo : Nat) :
    le32 (bits.extractLsb' lo 8) (bits.extractLsb' (lo + 8) 8) (bits.extractLsb' (lo + 16) 8)
      (bits.extractLsb' (lo + 24) 8) = bits.extractLsb' lo 32 := by
  have h := le32_extractLsb' (bits.extractLsb' lo 32)
  rwa [extractLsb'_extractLsb' _ _ _ _ (by decide), extractLsb'_extractLsb' _ _ _ _ (by decide),
    extractLsb'_extractLsb' _ _ _ _ (by decide), extractLsb'_extractLsb' _ _ _ _ (by decide)] at h

/-- Byte `56 + j` of the last block is byte `j` of the length field. -/
theorem getD_lastBlock {tail : List Byte} (bits : BitVec 64) (h : tail.length < 64) {j : Nat} (hj : j < 8) :
    ((paddedTail tail bits).drop ((paddedTail tail bits).length - 64)).getD (56 + j) 0#8 = bits.extractLsb' (8 * j) 8 := by
  have hBound : 64 ≤ paddedLength tail.length := by rw [paddedLength]; split <;> decide
  have hIndex : (paddedTail tail bits).length - 64 + (56 + j) = paddedLength tail.length - 8 + j := by
    rw [length_paddedTail bits h]
    omega
  rw [List.getD, List.getElem?_drop, hIndex, getElem?_paddedTail_lengthField bits h hj, Option.getD_some]

/-- A half of the length field: the words 14 and 15 of the last block, for `k = 0` and `k = 1`. -/
theorem blockWords_lastBlock {tail : List Byte} (bits : BitVec 64) (h : tail.length < 64) {k : Nat} (hk : k < 2) :
    (blockWords ((paddedTail tail bits).drop ((paddedTail tail bits).length - 64)))[14 + k] =
      bits.extractLsb' (32 * k) 32 := by
  have hByte {j n : Nat} (hj : j < 4) (hn : n = 4 * (14 + k) + j) :
      ((paddedTail tail bits).drop ((paddedTail tail bits).length - 64)).getD n 0#8 =
        bits.extractLsb' (32 * k + 8 * j) 8 := by
    rw [hn, show 4 * (14 + k) + j = 56 + (4 * k + j) by omega, getD_lastBlock bits h (by omega),
      show 8 * (4 * k + j) = 32 * k + 8 * j by omega]
  rw [blockWords, Vector.getElem_ofFn, ← le32_bytes]
  dsimp only
  rw [hByte (j := 0) (n := 4 * (14 + k)) (by decide) rfl, hByte (j := 1) (by decide) rfl, hByte (j := 2) (by decide) rfl,
    hByte (j := 3) (by decide) rfl]
  rfl

/-- Settles O44: the last eight bytes of the padded tail are the length field (`getElem?_paddedTail_lengthField`). -/
theorem lengthFieldWords : Obligations.LengthFieldWords :=
  ⟨fun _ bits h => ⟨blockWords_lastBlock bits h (k := 0) (by decide), blockWords_lastBlock bits h (k := 1) (by decide)⟩,
    fun _ => rfl⟩

/-! ### The buffer as a list of bytes -/

theorem Memory.getElem?_bytes (m : Memory) (k : BufIdx) : m.bytes[k.val]? = some (m.read k) := by
  simp [Memory.bytes]

/-- A list of 64 bytes is the buffer's when the buffer reads alike. -/
theorem Memory.bytes_eq {m : Memory} {l : List Byte} (hl : l.length = 64) (h : ∀ k : BufIdx, l[k.val]? = some (m.read k)) :
    m.bytes = l := by
  refine List.ext_getElem? fun k => ?_
  by_cases hk : k < 64
  · exact (m.getElem?_bytes ⟨k, hk⟩).trans (h ⟨k, hk⟩).symm
  · rw [List.getElem?_eq_none (by rw [m.length_bytes]; omega), List.getElem?_eq_none (by omega)]

/-! ### FINAL -/

/-- The tail of the message, as the buffer holds it. -/
def bufferedTail (s : State) : List Byte := s.buf.bytes.take (s.cnt.toNat % 64)

/-- The padded tail of the message, as the buffer and the count give it. -/
def paddedBuffer (s : State) : List Byte := paddedTail (bufferedTail s) (BitVec.ofNat 64 (8 * s.cnt.toNat))

theorem length_bufferedTail (s : State) : (bufferedTail s).length = s.cnt.toNat % 64 := by
  rw [bufferedTail, List.length_take, Memory.length_bytes]
  omega

theorem bufferedTail_lt (s : State) : (bufferedTail s).length < 64 := by
  rw [length_bufferedTail]
  omega

theorem length_paddedBuffer (s : State) : (paddedBuffer s).length = paddedLength (s.cnt.toNat % 64) := by
  rw [paddedBuffer, length_paddedTail _ (bufferedTail_lt s), length_bufferedTail]

/-- The byte of the padded tail at each index, by its four parts. -/
theorem getElem?_paddedBuffer (s : State) {k : Nat} (hk : k < paddedLength (s.cnt.toNat % 64)) :
    (paddedBuffer s)[k]? = some (
      if hTail : k < s.cnt.toNat % 64 then s.buf.read ⟨k, by omega⟩
      else if k = s.cnt.toNat % 64 then 0x80#8
      else if k < paddedLength (s.cnt.toNat % 64) - 8 then 0#8
      else (bitLength s.cnt).extractLsb' (8 * (k - (paddedLength (s.cnt.toNat % 64) - 8))) 8) := by
  have hLength := length_bufferedTail s
  rw [paddedBuffer]
  split_ifs with hTail hMark hZero
  · rw [getElem?_paddedTail_tail _ _ (by omega), bufferedTail, List.getElem?_take_of_lt hTail]
    exact s.buf.getElem?_bytes ⟨k, _⟩
  · rw [hMark, ← hLength, getElem?_paddedTail_mark]
  · exact getElem?_paddedTail_zero _ _ (by omega) (by rw [hLength]; exact hZero)
  · have hField := getElem?_paddedTail_lengthField (BitVec.ofNat 64 (8 * s.cnt.toNat)) (bufferedTail_lt s)
      (j := k - (paddedLength (s.cnt.toNat % 64) - 8)) (by omega)
    rw [hLength, Nat.add_sub_cancel' (by omega), Nat.mul_comm 8 s.cnt.toNat] at hField
    rw [Nat.mul_comm 8 s.cnt.toNat]
    exact hField

theorem read_lastBlockBuf (lo : Nat) {s : State} (h : s.buf.wf = true) (k : BufIdx) :
    (lastBlockBuf lo s).read k =
      if 56 ≤ k.val then (bitLength s.cnt).extractLsb' (8 * (k.val - 56)) 8
      else if lo ≤ k.val then 0#8 else s.buf.read k := by
  rw [lastBlockBuf, Memory.read_writeLength _ (Memory.wf_zeroFill _ _ h), Memory.read_zeroFill _ _ h]
  by_cases hField : 56 ≤ k.val
  · rw [if_pos hField, if_pos hField]
  · have hBelow : k.val ≤ 55 := by omega
    simp only [if_neg hField, hBelow, and_true]

theorem read_withPadMark {s : State} (h : s.buf.wf = true) (k : BufIdx) :
    (withPadMark s).buf.read k = if k.val = s.cnt.toNat % 64 then 0x80#8 else s.buf.read k := by
  rw [withPadMark, Memory.read_write _ _ _ h]
  simp only [Fin.ext_iff, tailIdx]

/-- For a tail of at most 55 bytes the one block is the padded tail. -/
theorem bytes_onlyBlock {s : State} (h : s.buf.wf = true) (ht : s.cnt.toNat % 64 ≤ 55) :
    (lastBlockBuf (s.cnt.toNat % 64 + 1) (withPadMark s)).bytes = paddedBuffer s := by
  have hLength : paddedLength (s.cnt.toNat % 64) = 64 := if_pos ht
  have hMark : (withPadMark s).buf.wf = true := Memory.wf_write _ _ h
  refine Memory.bytes_eq (by rw [length_paddedBuffer, hLength]) fun k => ?_
  rw [getElem?_paddedBuffer s (by omega), read_lastBlockBuf _ hMark, read_withPadMark h, hLength]
  have hCnt : (withPadMark s).cnt = s.cnt := rfl
  have hPart : k.val < s.cnt.toNat % 64 ∨ k.val = s.cnt.toNat % 64 ∨ (s.cnt.toNat % 64 < k.val ∧ k.val < 56) ∨
      56 ≤ k.val := by omega
  rcases hPart with hk | hk | hk | hk <;> simp (disch := omega) only [if_pos, if_neg, dif_pos, dif_neg, hCnt]

/-- The buffer of the first block for a longer tail. -/
def firstBlockBuf (s : State) : Memory := (withPadMark s).buf.zeroFill (s.cnt.toNat % 64 + 1) 63

theorem bytes_firstBlock {s : State} (h : s.buf.wf = true) (ht : 55 < s.cnt.toNat % 64) :
    (firstBlockBuf s).bytes = (paddedBuffer s).take 64 := by
  have hLength : paddedLength (s.cnt.toNat % 64) = 128 := if_neg ht.not_ge
  have hMark : (withPadMark s).buf.wf = true := Memory.wf_write _ _ h
  refine Memory.bytes_eq (by simp [length_paddedBuffer, hLength]) fun k => ?_
  rw [List.getElem?_take_of_lt k.isLt, getElem?_paddedBuffer s (by omega), firstBlockBuf, Memory.read_zeroFill _ _ hMark,
    read_withPadMark h, hLength]
  have hPart : k.val < s.cnt.toNat % 64 ∨ k.val = s.cnt.toNat % 64 ∨ s.cnt.toNat % 64 < k.val := by omega
  rcases hPart with hk | hk | hk <;> simp (disch := omega) only [if_pos, if_neg, dif_pos, dif_neg]

theorem bytes_secondBlock {s u : State} (h : u.buf.wf = true) (hCnt : u.cnt = s.cnt) (ht : 55 < s.cnt.toNat % 64) :
    (lastBlockBuf 0 u).bytes = (paddedBuffer s).drop 64 := by
  have hLength : paddedLength (s.cnt.toNat % 64) = 128 := if_neg ht.not_ge
  refine Memory.bytes_eq (by rw [List.length_drop, length_paddedBuffer, hLength]) fun k => ?_
  rw [List.getElem?_drop, getElem?_paddedBuffer s (by omega), read_lastBlockBuf _ h, hLength, hCnt,
    show 64 + k.val - (128 - 8) = k.val - 56 by omega]
  have hPart : k.val < 56 ∨ 56 ≤ k.val := by omega
  rcases hPart with hk | hk <;> simp (disch := omega) only [if_pos, if_neg, dif_neg]

/-- The padding engine compresses the blocks of the padded tail in order and leaves the last one in the buffer. -/
theorem padAndCompress_blocks {s : State} (h : s.buf.wf = true) :
    (padAndCompress s).st =
        (blocksOf ((paddedBuffer s).length / 64) (paddedBuffer s)).foldl (fun st b => compressBlock b st) s.st ∧
      (padAndCompress s).buf.bytes = (paddedBuffer s).drop ((paddedBuffer s).length - 64) := by
  have hBytes := length_paddedBuffer s
  rcases padAndCompress_cases s with ⟨ht, e⟩ | ⟨ht, e⟩
  · have hLength : (paddedBuffer s).length = 64 := hBytes.trans (if_pos ht)
    have hTake : (paddedBuffer s).take 64 = paddedBuffer s := List.take_of_length_le hLength.le
    have hBlock := bytes_onlyBlock h ht
    rw [e, padLast_eq, compress_st, compress_buf, hBlock, hLength]
    exact ⟨congrArg (compressBlock · s.st) hTake.symm, rfl⟩
  · have hLength : (paddedBuffer s).length = 128 := hBytes.trans (if_neg ht.not_ge)
    have hTake : ((paddedBuffer s).drop 64).take 64 = (paddedBuffer s).drop 64 :=
      List.take_of_length_le (by simp [hLength])
    have hFirst := bytes_firstBlock h ht
    have hSecond := bytes_secondBlock (u := compress { withPadMark s with buf := firstBlockBuf s }) (s := s)
      (by rw [compress_buf]; exact Memory.wf_zeroFill _ _ (Memory.wf_write _ _ h)) (by rw [compress_cnt]; rfl) ht
    rw [e, padLast_eq, compress_st, compress_buf, ← firstBlockBuf, hSecond, compress_st, hFirst, hLength]
    exact ⟨congrArg (compressBlock · _) hTake.symm, rfl⟩

/-- FINAL in ABSORB: what the padding engine leaves, in phase DONE. -/
theorem exec_final_of_absorb (ign : BitVec 28) {s : State} (hp : s.phase = .absorb) :
    exec (.final ign) s = .next (noResponse { padAndCompress s with phase := .done }) := by
  rcases finalOp_cases s with ⟨h, -⟩ | ⟨-, e⟩
  · exact absurd hp h
  · exact congrArg (Host.Outcome.next ∘ noResponse) e

/-- Settles O18: `padAndCompress_blocks` for `ST` and `BUF`, `padAndCompress_frame` for the rest. -/
theorem finalPadsAndPublishes : Obligations.FinalPadsAndPublishes := by
  refine ⟨final_encoding, fun ign s hp h => ⟨_, exec_final_of_absorb ign hp, ?_⟩⟩
  obtain ⟨hSt, hBytes⟩ := padAndCompress_blocks h
  obtain ⟨hCnt, -, hLen, hSeq, hCmd, hEseq, hInputs, -⟩ := padAndCompress_frame s
  exact ⟨hSt, hBytes, padAndCompress_wf h, rfl, hCnt, hLen, hSeq, hCmd, hEseq, hInputs, rfl, padAndCompress_compressions s⟩

/-! ### Bytes absorbed -/

@[simp] theorem noResponse_noResponse (s : State) : noResponse (noResponse s) = noResponse s := rfl

theorem absorbByte_noResponse (s : State) (b : Byte) : absorbByte (noResponse s) b = noResponse (absorbByte s b) := by
  rcases absorbByte_cases s b with ⟨h, e⟩ | ⟨h, e⟩
  · rcases absorbByte_cases (noResponse s) b with ⟨-, e'⟩ | ⟨h', -⟩
    · rw [e, e', compress_eq, compress_eq]
      rfl
    · exact absurd h h'
  · rcases absorbByte_cases (noResponse s) b with ⟨h', -⟩ | ⟨-, e'⟩
    · exact absurd h' h
    · rw [e, e']
      rfl

/-- An accepted DATA_B absorbs its byte. -/
theorem exec_dataB_accepted {s : State} (b : Byte) (g : BitVec 24) (hp : s.phase = .absorb)
    (hc : s.cnt.toNat + 1 ≤ maxLen) : exec (.dataB b g) s = .next (noResponse (absorbByte s b)) := by
  rw [exec_of_isData s rfl]
  exact congrArg (Host.Outcome.next ∘ noResponse) (dataWrite_accepted (bs := [b]) hp hc)

/-- Accepted DATA_B writes absorb their bytes in order. -/
theorem execAll_dataB (ps : List (Byte × BitVec 24)) {s : State} (hp : s.phase = .absorb)
    (hc : s.cnt.toNat + ps.length ≤ maxLen) :
    execAll (ps.map fun p => .dataB p.1 p.2) (noResponse s) = .next (noResponse (absorbBytes (ps.map Prod.fst) s)) := by
  induction ps generalizing s with
  | nil => rfl
  | cons p ps ih =>
    rw [List.length_cons] at hc
    have hCnt := absorbByte_cnt_toNat p.1 (s := s) (by omega)
    have hStep := exec_dataB_accepted (s := noResponse s) p.1 p.2 hp (by rw [noResponse_cnt]; omega)
    have hRest := ih (s := absorbByte s p.1) (by rw [absorbByte_phase, hp]) (by omega)
    rw [absorbByte_noResponse, noResponse_noResponse] at hStep
    rw [List.map_cons, execAll, hStep, List.map_cons, absorbBytes_cons]
    exact hRest

/-- Settles O21: both sides absorb the same four bytes; the answers in between leave no trace. -/
theorem wordIsFourBytes : Obligations.WordIsFourBytes := by
  refine ⟨dataW_encoding, dataB_encoding, fun d => decodeHT_htWord 1#1 2#6 d, fun b0 b1 b2 b3 g0 g1 g2 g3 s hp hc => ?_⟩
  refine ⟨noResponse (absorbBytes [b0, b1, b2, b3] s), ?_, ?_⟩
  · rw [exec_of_isData s rfl]
    exact congrArg (Host.Outcome.next ∘ noResponse) (dataWrite_accepted hp hc)
  · have hFirst : execAll [.dataB b0 g0, .dataB b1 g1, .dataB b2 g2, .dataB b3 g3] s =
        execAll [.dataB b1 g1, .dataB b2 g2, .dataB b3 g3] (noResponse (absorbByte s b0)) := by
      rw [execAll, exec_dataB_accepted b0 g0 hp (by omega)]
    have hCnt := absorbByte_cnt_toNat b0 (s := s) (by omega)
    have hRest := execAll_dataB [(b1, g1), (b2, g2), (b3, g3)] (s := absorbByte s b0) (by rw [absorbByte_phase, hp])
      (by rw [List.length_cons, List.length_cons, List.length_singleton]; omega)
    rw [hFirst, absorbBytes_cons]
    exact hRest

/-- A byte goes to the tail position and leaves every other byte. -/
theorem read_absorbByte {s : State} (b : Byte) (h : s.buf.wf = true) (k : BufIdx) :
    (absorbByte s b).buf.read k = if k.val = s.cnt.toNat % 64 then b else s.buf.read k := by
  rw [absorbByte_buf, Memory.read_write _ _ _ h]
  simp only [Fin.ext_iff, tailIdx]

theorem absorbByte_wf {s : State} (b : Byte) (h : s.buf.wf = true) : (absorbByte s b).buf.wf = true := by
  rw [absorbByte_buf]
  exact Memory.wf_write _ _ h

/-- Bytes that stay within the block stand behind the tail, in order; the rest of the buffer stays. -/
theorem read_absorbBytes (bs : List Byte) {s : State} (h : s.buf.wf = true) (hc : s.cnt.toNat + bs.length ≤ maxLen)
    (hBlock : s.cnt.toNat % 64 + bs.length ≤ 64) (k : BufIdx) :
    (absorbBytes bs s).buf.read k =
      if k.val < s.cnt.toNat % 64 then s.buf.read k else bs.getD (k.val - s.cnt.toNat % 64) (s.buf.read k) := by
  induction bs using List.reverseRecOn with
  | nil => simp
  | append_singleton bs b ih =>
    rw [List.length_append, List.length_singleton] at hc hBlock
    have hCnt := absorbBytes_cnt_toNat bs (s := s) (by omega)
    have hTail : (absorbBytes bs s).cnt.toNat % 64 = s.cnt.toNat % 64 + bs.length := by omega
    have hSplit : absorbBytes (bs ++ [b]) s = absorbByte (absorbBytes bs s) b := List.foldl_append
    have hByte : (absorbBytes (bs ++ [b]) s).buf.read k =
        if k.val = s.cnt.toNat % 64 + bs.length then b else (absorbBytes bs s).buf.read k := by
      rw [hSplit, read_absorbByte b (absorbBytes_wf bs h), hTail]
    rw [hByte, ih (by omega) (by omega)]
    have hPart : k.val < s.cnt.toNat % 64 ∨ (s.cnt.toNat % 64 ≤ k.val ∧ k.val < s.cnt.toNat % 64 + bs.length) ∨
        k.val = s.cnt.toNat % 64 + bs.length ∨ s.cnt.toNat % 64 + bs.length < k.val := by omega
    rcases hPart with hk | hk | hk | hk
    · rw [if_neg (by omega), if_pos hk, if_pos hk]
    · rw [if_neg (by omega), if_neg (by omega), if_neg (by omega), List.getD_append _ _ _ _ (by omega)]
    · rw [if_pos hk, if_neg (by omega), List.getD_append_right _ _ _ _ (by omega), hk]
      simp
    · rw [if_neg (by omega), if_neg (by omega), if_neg (by omega), List.getD_eq_default _ _ (by omega),
        List.getD_eq_default _ _ (by simp; omega)]

/-- An accepted word absorbs its four bytes, the lowest first. -/
theorem exec_dataW_accepted {s : State} (d : Word) (hp : s.phase = .absorb) (hc : s.cnt.toNat + 4 ≤ maxLen) :
    exec (decodeHT (htWord 1#1 2#6 d)) s = .next (noResponse (absorbBytes (bytes32 d) s)) := by
  have hDecode : decodeHT (htWord 1#1 2#6 d) =
      .dataW (d.extractLsb' 0 8) (d.extractLsb' 8 8) (d.extractLsb' 16 8) (d.extractLsb' 24 8) :=
    decodeHT_htWord 1#1 2#6 d
  rw [hDecode, exec_of_isData s rfl]
  exact congrArg (Host.Outcome.next ∘ noResponse) (dataWrite_accepted (bs := bytes32 d) hp hc)

/-- Settles O22: an aligned word lies within one block, so its four bytes stand in order where UNPACK forms a word. -/
theorem alignedWordIsMessageWord : Obligations.AlignedWordIsMessageWord := by
  intro d s hp hc hAligned h
  refine ⟨_, _, exec_dataW_accepted d hp hc, rfl, ?_⟩
  have hByte {n : Nat} (hn : n < 64) (j : Nat) (hj : j < 4) (hAt : n = 4 * (s.cnt.toNat % 64 / 4) + j) :
      (absorbBytes (bytes32 d) s).buf.read ⟨n, hn⟩ = d.extractLsb' (8 * j) 8 := by
    have hTail : n - s.cnt.toNat % 64 = j := by omega
    have hLength : (bytes32 d).length = 4 := rfl
    rw [read_absorbBytes (bytes32 d) h (hLength.symm ▸ hc) (by omega), if_neg (by dsimp only; omega),
      bytes32_eq_map_range]
    dsimp only
    rw [hTail]
    simp [List.getD, hj]
  rw [unpackOp_mw, Vector.getElem_ofFn, noResponse_buf, Memory.word]
  dsimp only
  rw [hByte (n := 4 * (s.cnt.toNat % 64 / 4)) _ 0 (by decide) rfl, hByte _ 1 (by decide) rfl, hByte _ 2 (by decide) rfl,
    hByte _ 3 (by decide) rfl]
  exact le32_extractLsb' d

end Sys2Proof.Machine
end

