-- ==== Sys2Proof/Proofs/Message.lean ====
section
/-! PROOFS. The message in progress (10_state.md R42): what an absorbed byte, INIT and FINAL do to it, and the invariant that
every step keeps. -/

namespace Sys2Proof.Machine

open Sys2Proof.Safety

/-! ### Blocks -/

@[simp] theorem blocksOf_zero (m : List Byte) : blocksOf 0 m = [] := rfl

/-- Block `n` stands behind the blocks before it. -/
theorem blocksOf_succ_last (n : Nat) (m : List Byte) :
    blocksOf (n + 1) m = blocksOf n m ++ [(m.drop (64 * n)).take 64] := by
  induction n generalizing m with
  | zero => rfl
  | succ n ih =>
    rw [blocksOf, ih, blocksOf, List.drop_drop, List.cons_append, Nat.mul_succ, Nat.add_comm]

/-- Bytes behind the whole blocks make no difference to them. -/
theorem blocksOf_append (n k : Nat) {m : List Byte} (l : List Byte) (h : m.length = 64 * n) :
    blocksOf (n + k) (m ++ l) = blocksOf n m ++ blocksOf k l := by
  induction n generalizing m with
  | zero =>
    obtain rfl : m = [] := List.length_eq_zero_iff.1 (by omega)
    simp
  | succ n ih =>
    have hTake : (m ++ l).take 64 = m.take 64 := List.take_append_of_le_length (by omega)
    have hDrop : (m ++ l).drop 64 = m.drop 64 ++ l := List.drop_append_of_le_length (by omega)
    rw [Nat.succ_add, Nat.succ_eq_add_one, blocksOf, blocksOf, hTake, hDrop, ih (by simp; omega), List.cons_append]

theorem blocksOf_append_of_le {n : Nat} {m : List Byte} (l : List Byte) (h : 64 * n ≤ m.length) :
    blocksOf n (m ++ l) = blocksOf n m := by
  induction n generalizing m with
  | zero => rfl
  | succ n ih =>
    have hTake : (m ++ l).take 64 = m.take 64 := List.take_append_of_le_length (by omega)
    have hDrop : (m ++ l).drop 64 = m.drop 64 ++ l := List.drop_append_of_le_length (by omega)
    rw [blocksOf, blocksOf, hTake, hDrop, ih (by simp; omega)]

/-! ### Messages held -/

/-- What the block holds does not depend on anything but the count, the buffer and the chaining value. -/
theorem holdsMessage_congr {s t : State} {m : List Byte} (h : HoldsMessage s m) (hCnt : t.cnt = s.cnt)
    (hBuf : t.buf = s.buf) (hSt : t.st = s.st) : HoldsMessage t m := by
  rwa [HoldsMessage, hCnt, hBuf, hSt]

/-- The whole blocks of a message with one byte more: one block more when the byte completes it. -/
theorem chainOf_append_singleton (m : List Byte) (b : Byte) :
    chainOf (m ++ [b]) =
      if (m.length + 1) % 64 = 0 then compressBlock ((m ++ [b]).drop (m.length + 1 - 64)) (chainOf m) else chainOf m := by
  have hSame : blocksOf (m.length / 64) (m ++ [b]) = blocksOf (m.length / 64) m := blocksOf_append_of_le [b] (by omega)
  have hFold : chainOf (m ++ [b]) =
    (blocksOf ((m.length + 1) / 64) (m ++ [b])).foldl (fun st b => compressBlock b st) iv := by simp [chainOf]
  split
  · have hBlocks : (m.length + 1) / 64 = m.length / 64 + 1 := by omega
    have hLast : 64 * (m.length / 64) = m.length + 1 - 64 := by omega
    have hTake : ((m ++ [b]).drop (m.length + 1 - 64)).take 64 = (m ++ [b]).drop (m.length + 1 - 64) :=
      List.take_of_length_le (by simp; omega)
    rw [hFold, hBlocks, blocksOf_succ_last, hSame, hLast, hTake, List.foldl_append]
    rfl
  · have hBlocks : (m.length + 1) / 64 = m.length / 64 := by omega
    rw [hFold, hBlocks, hSame]
    rfl

/-- The byte absorbed is the message's next. -/
theorem holdsMessage_absorbByte {s : State} {m : List Byte} (b : Byte) (h : HoldsMessage s m) (hWf : s.buf.wf = true)
    (hc : m.length < maxLen) : HoldsMessage (absorbByte s b) (m ++ [b]) := by
  obtain ⟨hCnt, hTail, hSt⟩ := h
  have hCnt' := absorbByte_cnt_toNat b (s := s) (by omega)
  have hRead (k : BufIdx) : (absorbByte s b).buf.read k = if k.val = m.length % 64 then b else s.buf.read k := by
    rw [read_absorbByte b hWf, hCnt]
  /- The bytes from the last block's start on, the new one among them. -/
  have hBytes (k : BufIdx) (hk : k.val ≤ m.length % 64) :
      (m ++ [b])[m.length - m.length % 64 + k.val]? = some ((absorbByte s b).buf.read k) := by
    rw [hRead]
    by_cases hLast : k.val = m.length % 64
    · rw [if_pos hLast, hLast, Nat.sub_add_cancel (Nat.mod_le ..), List.getElem?_concat_length]
    · rw [if_neg hLast, List.getElem?_append_left (by omega), hTail k (by omega)]
  refine ⟨?_, fun k hk => ?_, ?_⟩
  · rw [hCnt', hCnt, List.length_append, List.length_singleton]
  · rw [List.length_append, List.length_singleton] at hk ⊢
    have hStart : m.length + 1 - (m.length + 1) % 64 = m.length - m.length % 64 := by omega
    rw [hStart, hBytes k (by omega)]
  · rw [chainOf_append_singleton, ← hSt]
    have hNext : (s.cnt + 1#61).toNat = m.length + 1 := by rw [← absorbByte_cnt s b, hCnt', hCnt]
    rcases absorbByte_cases s b with ⟨hEnd, e⟩ | ⟨hEnd, e⟩
    · have hBlock : (withByte s b).buf.bytes = (m ++ [b]).drop (m.length + 1 - 64) := by
        have hBuf : (withByte s b).buf = (absorbByte s b).buf := by rw [absorbByte_buf, withByte]
        rw [hBuf]
        refine Memory.bytes_eq (by simp; omega) fun k => ?_
        rw [List.getElem?_drop, ← hBytes k (by omega)]
        congr 1
        omega
      rw [if_pos (by omega), e, compress_st, hBlock]
      rfl
    · rw [if_neg (by omega), e]
      rfl

theorem holdsMessage_absorbBytes {s : State} {m : List Byte} (bs : List Byte) (h : HoldsMessage s m)
    (hWf : s.buf.wf = true) (hc : m.length + bs.length ≤ maxLen) : HoldsMessage (absorbBytes bs s) (m ++ bs) := by
  induction bs generalizing s m with
  | nil => simpa using h
  | cons b bs ih =>
    rw [List.length_cons] at hc
    have hByte := holdsMessage_absorbByte b h hWf (by omega)
    have hRest := ih hByte (absorbByte_wf b hWf)
      (by rw [List.length_append, List.length_singleton]; omega)
    rwa [List.append_assoc] at hRest

/-! ### FINAL -/

/-- The tail in the buffer is the message's. -/
theorem bufferedTail_eq_of_holdsMessage {s : State} {m : List Byte} (h : HoldsMessage s m) :
    bufferedTail s = m.drop (m.length - m.length % 64) := by
  obtain ⟨hCnt, hTail, -⟩ := h
  have hLength := length_bufferedTail s
  refine List.ext_getElem? fun k => ?_
  rw [List.getElem?_drop]
  by_cases hk : k < m.length % 64
  · rw [bufferedTail, List.getElem?_take_of_lt (by omega), hTail ⟨k, by omega⟩ hk]
    exact s.buf.getElem?_bytes ⟨k, by omega⟩
  · rw [List.getElem?_eq_none (by omega), List.getElem?_eq_none (by omega)]

/-- The blocks of the padded message are those of the message and then those of the padded tail. -/
theorem md5state_eq (m : List Byte) :
    md5state m =
      (blocksOf ((paddedTail (m.drop (m.length - m.length % 64)) (BitVec.ofNat 64 (8 * m.length))).length / 64)
        (paddedTail (m.drop (m.length - m.length % 64)) (BitVec.ofNat 64 (8 * m.length)))).foldl
          (fun st b => compressBlock b st) (chainOf m) := by
  set whole := m.length - m.length % 64 with hWhole
  set p := paddedTail (m.drop whole) (BitVec.ofNat 64 (8 * m.length)) with hp
  have hTake : (m.take whole).length = 64 * (m.length / 64) := by rw [List.length_take]; omega
  have hBlocks : (m.take whole ++ p).length / 64 = m.length / 64 + p.length / 64 := by
    rw [List.length_append, hTake]
    omega
  have hMessage : blocksOf (m.length / 64) (m.take whole) = blocksOf (m.length / 64) m := by
    rw [← blocksOf_append_of_le (m.drop whole) hTake.ge, List.take_append_drop]
  rw [md5state, paddedMessage, chainOf]
  simp only [← hWhole, ← hp]
  rw [hBlocks, blocksOf_append _ _ _ hTake, List.foldl_append, hMessage, chainOf]

/-- FINAL leaves the digest of the message. -/
theorem padAndCompress_st_of_holdsMessage {s : State} {m : List Byte} (h : HoldsMessage s m) (hWf : s.buf.wf = true) :
    (padAndCompress s).st = md5state m := by
  obtain ⟨hSt, -⟩ := padAndCompress_blocks hWf
  have hTail := bufferedTail_eq_of_holdsMessage h
  obtain ⟨hCnt, -, hChain⟩ := h
  rw [hSt, md5state_eq, paddedBuffer, hTail, hCnt, hChain]

/-! ### Accesses -/

theorem isAccess_decodeHT (v : HtWord) : isAccess (decodeHT v) = true := by
  rw [isAccess, (encode_decodeHT v).2]

/-- An access that neither opens a computation, nor closes the open one, nor is an accepted data write leaves what the block
holds. -/
theorem exec_keeps_message {i : Instr} {s t : State} (hAccess : isAccess i = true) (h : exec i s = .next t)
    (hInit : isInit i = false) (hFinal : isFinal i = true → s.phase ≠ .absorb)
    (hData : isData i = true → ¬(s.phase = .absorb ∧ s.cnt.toNat + (messageBytes i).length ≤ maxLen)) :
    t.cnt = s.cnt ∧ t.buf = s.buf ∧ t.st = s.st := by
  have hAccum : i ≠ .accum := by
    rintro rfl
    cases hAccess
  rcases exec_cases h with ⟨hi, -⟩ | ⟨-, hf, -, -, rfl⟩ | ⟨-, -, hd, -, rfl⟩ | ⟨-, -, -, -, rfl⟩ |
    ⟨-, hf, hd, -, _, _, _, _, rfl⟩
  · simp [hInit] at hi
  · rcases finalOp_cases s with ⟨-, e⟩ | ⟨hp, -⟩
    · simp [e]
    · exact absurd hp (hFinal hf)
  · rcases dataWrite_refused (hData hd) with e | e <;> simp [e]
  · simp
  · exact ⟨rfl, rfl, exec_st h hInit hf hd hAccum⟩

theorem exec_init_message {i : Instr} {s t : State} (h : exec i s = .next t) (hInit : isInit i = true) :
    t = noResponse (initOp s) := by
  rcases exec_cases h with ⟨-, -, -, -, e⟩ | ⟨hi, -⟩ | ⟨hi, -⟩ | ⟨hi, -⟩ | ⟨hi, -⟩
  · exact e
  all_goals simp [hInit] at hi

theorem exec_data_message {m : List Byte} {i : Instr} {s t : State} (hWf : s.buf.wf = true) (hs : HoldsMessage s m)
    (h : exec i s = .next t) (hData : isData i = true) (hp : s.phase = .absorb)
    (hc : m.length + (messageBytes i).length ≤ maxLen) :
    t.phase = .absorb ∧ HoldsMessage t (m ++ messageBytes i) := by
  have hCnt : s.cnt.toNat = m.length := hs.1
  obtain ⟨hPhase, -⟩ := absorbBytes_frame (messageBytes i) s
  rw [exec_of_isData s hData, dataWrite_accepted hp (by omega)] at h
  cases h
  exact ⟨hPhase.trans hp, holdsMessage_congr (holdsMessage_absorbBytes _ hs hWf hc) rfl rfl rfl⟩

theorem exec_final_message {m : List Byte} {i : Instr} {s t : State} (hWf : s.buf.wf = true) (hs : HoldsMessage s m)
    (h : exec i s = .next t) (hFinal : isFinal i = true) (hp : s.phase = .absorb) :
    t.phase = .done ∧ t.cnt.toNat = m.length ∧ t.st = md5state m := by
  have hSt := padAndCompress_st_of_holdsMessage hs hWf
  obtain ⟨hFrame, -⟩ := padAndCompress_frame s
  cases i with
  | final ign =>
    rw [exec_final_of_absorb ign hp] at h
    cases h
    exact ⟨rfl, (congrArg BitVec.toNat hFrame).trans hs.1, hSt⟩
  | _ => cases hFinal

/-- 10_state.md R42, access by access. -/
theorem exec_message {m : List Byte} {i : Instr} {s t : State} (hWf : s.buf.wf = true) (hs : HoldsMessage s m)
    (hAccess : isAccess i = true) (h : exec i s = .next t) :
    (isInit i = true → t.phase = .absorb ∧ HoldsMessage t []) ∧
      (isData i = true → s.phase = .absorb → m.length + (messageBytes i).length ≤ maxLen →
        t.phase = .absorb ∧ HoldsMessage t (m ++ messageBytes i)) ∧
      (isFinal i = true → s.phase = .absorb → t.phase = .done ∧ t.cnt.toNat = m.length ∧ t.st = md5state m) ∧
      (isInit i = false → (isFinal i = true → s.phase ≠ .absorb) → accepts m s i = false → HoldsMessage t m) := by
  refine ⟨fun hInit => ?_, exec_data_message hWf hs h, exec_final_message hWf hs h, fun hInit hFinal hRefused => ?_⟩
  · rw [exec_init_message h hInit]
    exact ⟨rfl, (holdsMessage_nil _).2 ⟨rfl, rfl⟩⟩
  · have hData (hd : isData i = true) : ¬(s.phase = .absorb ∧ s.cnt.toNat + (messageBytes i).length ≤ maxLen) := by
      rintro ⟨hp, hc⟩
      rw [hs.1] at hc
      exact Bool.false_ne_true (hRefused.symm.trans ((accepts_iff m s i).2 ⟨hd, hp, hc⟩))
    obtain ⟨hCnt, hBuf, hSt⟩ := exec_keeps_message hAccess h hInit hFinal hData
    exact holdsMessage_congr hs hCnt hBuf hSt

/-! ### The invariant -/

theorem digestConsistent_absorb {m : List Byte} {s : State} (hp : s.phase = .absorb) :
    DigestConsistent m s ↔ HoldsMessage s m := by
  rw [DigestConsistent, hp]

theorem digestConsistent_failed {m : List Byte} {s : State} (hp : s.phase = .failed) :
    DigestConsistent m s ↔ HoldsMessage s m := by
  rw [DigestConsistent, hp]

theorem digestConsistent_done {m : List Byte} {s : State} (hp : s.phase = .done) :
    DigestConsistent m s ↔ s.cnt.toNat = m.length ∧ s.st = md5state m := by
  rw [DigestConsistent, hp]

theorem digestConsistent_congr {s t : State} {m : List Byte} (h : DigestConsistent m s) (hPhase : t.phase = s.phase)
    (hCnt : t.cnt = s.cnt) (hBuf : t.buf = s.buf) (hSt : t.st = s.st) : DigestConsistent m t := by
  simpa only [DigestConsistent, HoldsMessage, hPhase, hCnt, hBuf, hSt] using h

/-- An access of an open computation. -/
theorem exec_digestConsistent_absorb {m : List Byte} {i : Instr} {s t : State} (hWf : s.buf.wf = true)
    (hs : HoldsMessage s m) (hp : s.phase = .absorb) (hAccess : isAccess i = true) (h : exec i s = .next t)
    (hInit : isInit i = false) : DigestConsistent (messageAfterAccess m s i) t := by
  obtain ⟨-, hData, hFinal, hKeeps⟩ := exec_message hWf hs hAccess h
  cases hAccepts : accepts m s i with
  | true =>
    obtain ⟨hd, -, hc⟩ := (accepts_iff m s i).1 hAccepts
    obtain ⟨hPhase, hHolds⟩ := hData hd hp hc
    rw [messageAfterAccess_accepted hInit hAccepts]
    exact (digestConsistent_absorb hPhase).2 hHolds
  | false =>
    rw [messageAfterAccess_other hInit hAccepts]
    rcases exec_phase_cases h with ⟨hi, -⟩ | ⟨-, hf, -, -, -⟩ | ⟨-, hf, -, -, -, hPhase⟩ | ⟨-, hf, -, hPhase⟩
    · simp [hInit] at hi
    · obtain ⟨hPhase, hDigest⟩ := hFinal hf hp
      exact (digestConsistent_done hPhase).2 hDigest
    · exact (digestConsistent_failed hPhase).2 (hKeeps hInit (by simp [hf]) hAccepts)
    · exact (digestConsistent_absorb (hPhase.trans hp)).2 (hKeeps hInit (fun hf' => absurd ⟨hf', hp⟩ hf) hAccepts)

theorem exec_digestConsistent {m : List Byte} {i : Instr} {s t : State} (hWf : s.buf.wf = true)
    (hs : DigestConsistent m s) (hAccess : isAccess i = true) (h : exec i s = .next t) :
    DigestConsistent (messageAfterAccess m s i) t := by
  cases hInit : isInit i with
  | true =>
    rw [messageAfterAccess_init hInit, exec_init_message h hInit]
    exact (digestConsistent_absorb rfl).2 ((holdsMessage_nil _).2 ⟨rfl, rfl⟩)
  | false =>
    by_cases hp : s.phase = .absorb
    · exact exec_digestConsistent_absorb hWf ((digestConsistent_absorb hp).1 hs) hp hAccess h hInit
    · have hRefused : accepts m s i = false := by simp [accepts, hp]
      obtain ⟨hCnt, hBuf, hSt⟩ := exec_keeps_message hAccess h hInit (fun _ => hp) fun _ hAccepted => hp hAccepted.1
      have hPhase : t.phase = s.phase := by
        rcases exec_phase_cases h with ⟨hi, -⟩ | ⟨-, -, -, hp', -⟩ | ⟨-, -, -, hp', -⟩ | ⟨-, -, -, e⟩
        · simp [hInit] at hi
        · exact absurd hp' hp
        · exact absurd hp' hp
        · exact e
      rw [messageAfterAccess_other hInit hRefused]
      exact digestConsistent_congr hs hPhase hCnt hBuf hSt

/-- An access leaves the sequencer idle and the inputs behind it waiting. -/
theorem exec_keeps_idle {i : Instr} {s t : State} (hAccess : isAccess i = true) (hIdle : s.eseq = .idle)
    (h : exec i s = .next t) : t.eseq = .idle ∧ t.inputs = s.inputs := by
  obtain ⟨u, hu, hEseq, hInputs, -⟩ := everyAccessCompletes i s hAccess hIdle
  obtain rfl : u = t := Host.Outcome.next.inj (hu.symm.trans h)
  exact ⟨hEseq, hInputs⟩

/-- What a step of a quiet block can be: a reset, an access, or waiting. -/
theorem step_quiet_cases {s t : State} (hQuiet : Quiet s) (h : step s = .next t) :
    (∃ rest, s.inputs = .reset :: rest ∧ t = resetEvent rest) ∨
      (∃ v rest, s.inputs = .access v :: rest ∧ exec (decodeHT v) { s with inputs := rest } = .next t) ∨
      (s.inputs = [] ∧ t = s) := by
  obtain ⟨hIdle, hHost⟩ := hQuiet
  rcases step_cases s with ⟨rest, hi, e⟩ | ⟨w, hw, -⟩ | ⟨v, rest, -, hi, e⟩ | ⟨w, rest, -, hi, -⟩ | ⟨-, hi, e⟩
  · exact .inl ⟨rest, hi, Host.Outcome.next.inj (h.symm.trans e)⟩
  · simp [hIdle, controlWord] at hw
  · exact .inr (.inl ⟨v, rest, hi, e ▸ h⟩)
  · simp [hi, isHostInput] at hHost
  · exact .inr (.inr ⟨hi, Host.Outcome.next.inj (h.symm.trans e)⟩)

/-- The inputs that wait behind the first are a host's too. -/
theorem quiet_of_rest {s t : State} {x : Input} {rest : List Input} (hQuiet : Quiet s) (hi : s.inputs = x :: rest)
    (hIdle : t.eseq = .idle) (hRest : t.inputs = rest) : Quiet t := by
  obtain ⟨-, hHost⟩ := hQuiet
  rw [hi, List.all_cons, Bool.and_eq_true] at hHost
  exact ⟨hIdle, hRest ▸ hHost.2⟩

theorem step_keeps_quiet {s t : State} (hQuiet : Quiet s) (h : step s = .next t) : Quiet t := by
  rcases step_quiet_cases hQuiet h with ⟨rest, hi, rfl⟩ | ⟨v, rest, hi, hExec⟩ | ⟨-, rfl⟩
  · exact quiet_of_rest hQuiet hi rfl rfl
  · obtain ⟨hIdle, hRest⟩ := exec_keeps_idle (s := { s with inputs := rest }) (isAccess_decodeHT v) hQuiet.1 hExec
    exact quiet_of_rest hQuiet hi hIdle hRest
  · exact hQuiet

/-- Settles O53: no byte is counted, `ST` is `IV`, and the phase is IDLE with no flag set. -/
theorem resetIsSound : Obligations.ResetIsSound :=
  fun _ hHost => ⟨rfl, ⟨rfl, hHost⟩, by simp [PhaseConsistent, State.reset], rfl, (holdsMessage_nil _).2 ⟨rfl, rfl⟩⟩

theorem step_keeps_sound {m : List Byte} {s t : State} (hs : Sound m s) (h : step s = .next t) :
    Sound (messageAfter m s) t := by
  obtain ⟨hWf, hQuiet, hPhase, hDigest⟩ := hs
  refine ⟨stepKeepsBufferCanonical s t hWf h, step_keeps_quiet hQuiet h, stepKeepsPhaseConsistent s t hPhase h, ?_⟩
  rcases step_quiet_cases hQuiet h with ⟨rest, hi, rfl⟩ | ⟨v, rest, hi, hExec⟩ | ⟨hi, rfl⟩
  · rw [messageAfter_reset hi]
    exact ⟨rfl, (holdsMessage_nil _).2 ⟨rfl, rfl⟩⟩
  · rw [messageAfter_access hi]
    exact exec_digestConsistent (s := { s with inputs := rest }) hWf hDigest (isAccess_decodeHT v) hExec
  · rwa [messageAfter_wait hi]

/-- Settles O52: the invariant by the cases of a quiet step (`step_keeps_sound`), the access lemma by the kinds of access
(`exec_message`). -/
theorem stepKeepsSound : Obligations.StepKeepsSound :=
  ⟨fun _ _ _ => step_keeps_sound, fun _ _ _ _ => exec_message⟩

end Sys2Proof.Machine
end

