-- ==== Sys2Proof/Proofs/Digest.lean ====
section
/-! PROOFS. The digest (42_driver.md R178, R179): INIT, data writes in any grouping and FINAL leave `md5state` of the bytes. -/

namespace Sys2Proof.Machine

open Sys2Proof.Safety

/-- No flag is set. -/
def NoFlags (s : State) : Prop := s.errLen = false ∧ s.errSeq = false ∧ s.errCmd = false

/-- A computation is open, with the bytes `m` absorbed since INIT, no flag set, and `n` compressions before it. -/
def OpenWith (n : Nat) (m : List Byte) (s : State) : Prop :=
  s.buf.wf = true ∧ s.eseq = .idle ∧ s.phase = .absorb ∧ HoldsMessage s m ∧ NoFlags s ∧
    s.compressions = n + m.length / 64

theorem mayStandInMessage_iff (i : Instr) :
    mayStandInMessage i = true ↔
      isAccess i = true ∧ isInit i = false ∧ isFinal i = false ∧ isReservedCmd i = false := by
  simp [mayStandInMessage, and_assoc]

theorem exec_init_openWith {i : Instr} {s t : State} (hWf : s.buf.wf = true) (hIdle : s.eseq = .idle)
    (hInit : isInit i = true) (h : exec i s = .next t) : OpenWith s.compressions [] t ∧ t.inputs = s.inputs := by
  rw [exec_init_message h hInit]
  exact ⟨⟨hWf, hIdle, rfl, (holdsMessage_nil _).2 ⟨rfl, rfl⟩, ⟨rfl, rfl, rfl⟩, rfl⟩, rfl⟩

/-- In ABSORB, an access with room for its bytes that is no reserved command sets no flag. -/
theorem exec_noFlags {i : Instr} {s t : State} (h : exec i s = .next t) (hInit : isInit i = false)
    (hRsvd : isReservedCmd i = false) (hp : s.phase = .absorb) (hc : s.cnt.toNat + (messageBytes i).length ≤ maxLen)
    (hs : NoFlags s) : NoFlags t := by
  obtain ⟨hLen, hSeq, hCmd⟩ := hs
  obtain ⟨hLenIff, hSeqIff, hCmdIff⟩ := exec_flags h hInit
  refine ⟨?_, ?_, ?_⟩ <;> rw [← Bool.not_eq_true]
  · simp [hLenIff, hLen, hc]
  · simp [hSeqIff, hSeq, hp]
  · simp [hCmdIff, hCmd, hRsvd]

theorem messageBytes_of_not_data {i : Instr} (h : isData i = false) : messageBytes i = [] := by
  cases i with
  | dataW | dataB => cases h
  | _ => rfl

theorem not_other_of_isFinal {i : Instr} (h : isFinal i = true) :
    isInit i = false ∧ isData i = false ∧ isReservedCmd i = false := by
  cases i with
  | final => exact ⟨rfl, rfl, rfl⟩
  | _ => cases h

/-- An access inside a message appends its bytes, none or all of a data write. -/
theorem exec_openWith {n : Nat} {m : List Byte} {i : Instr} {s t : State} (hs : OpenWith n m s)
    (hMay : mayStandInMessage i = true) (hc : m.length + (messageBytes i).length ≤ maxLen) (h : exec i s = .next t) :
    OpenWith n (m ++ messageBytes i) t ∧ t.inputs = s.inputs := by
  obtain ⟨hWf, hIdle, hp, hHolds, hClear, hCount⟩ := hs
  obtain ⟨hAccess, hInit, hFinal, hRsvd⟩ := (mayStandInMessage_iff i).1 hMay
  have hCnt : s.cnt.toNat = m.length := hHolds.1
  have hFlags : NoFlags t := exec_noFlags h hInit hRsvd hp (by omega) hClear
  obtain ⟨u, hu, hIdle', hInputs, -, hDataCount, -, hOtherCount⟩ := everyAccessCompletes i s hAccess hIdle
  obtain rfl : u = t := Host.Outcome.next.inj (hu.symm.trans h)
  obtain ⟨-, hData, -, hKeeps⟩ := exec_message hWf hHolds hAccess h
  cases hd : isData i with
  | true =>
    obtain ⟨hPhase, hHolds'⟩ := hData hd hp hc
    have hCnt' : u.cnt.toNat = (m ++ messageBytes i).length := hHolds'.1
    rw [List.length_append] at hCnt'
    obtain ⟨hComp, -⟩ := hDataCount hd
    refine ⟨⟨exec_wf hWf h, hIdle', hPhase, hHolds', hFlags, ?_⟩, hInputs⟩
    rw [List.length_append]
    omega
  | false =>
    have hNone : messageBytes i = [] := messageBytes_of_not_data hd
    have hPhase : u.phase = .absorb := by
      rcases exec_phase_cases h with ⟨hi, -⟩ | ⟨-, hf, -⟩ | ⟨-, -, hd', -⟩ | ⟨-, -, -, e⟩
      · simp [hInit] at hi
      · simp [hFinal] at hf
      · simp [hd] at hd'
      · exact e.trans hp
    rw [hNone, List.append_nil]
    exact ⟨⟨exec_wf hWf h, hIdle', hPhase, hKeeps hInit (by simp [hFinal]) (by simp [accepts, hd]), hFlags,
      (hOtherCount hd hFinal).trans hCount⟩, hInputs⟩

theorem step_access_next {s : State} {v : HtWord} {rest : List Input} (hIdle : s.eseq = .idle)
    (hi : s.inputs = .access v :: rest) : ∃ t, step s = .next t ∧ exec (decodeHT v) { s with inputs := rest } = .next t := by
  obtain ⟨t, ht⟩ := exec_access { s with inputs := rest } (isAccess_decodeHT v)
  exact ⟨t, (step_access hIdle hi).trans ht, ht⟩

/-- The accesses of a message, one step each. -/
theorem run_openWith {n : Nat} {m : List Byte} {s : State} (ws : List HtWord) {rest : List Input} (hs : OpenWith n m s)
    (hMay : ∀ w ∈ ws, mayStandInMessage (decodeHT w) = true) (hc : m.length + (messageOf ws).length ≤ maxLen)
    (hi : s.inputs = ws.map Input.access ++ rest) :
    ∃ t : State, Host.Core.run core ws.length s = .next t ∧ OpenWith n (m ++ messageOf ws) t ∧ t.inputs = rest := by
  induction ws generalizing s m with
  | nil => exact ⟨s, rfl, by simpa [messageOf] using hs, hi⟩
  | cons w ws ih =>
    rw [messageOf_cons, List.length_append] at hc
    obtain ⟨u, hu, hExec⟩ := step_access_next hs.2.1 hi
    obtain ⟨hOpen, hInputs⟩ := exec_openWith (s := { s with inputs := ws.map Input.access ++ rest }) hs
      (hMay w List.mem_cons_self) (by omega) hExec
    obtain ⟨t, ht, hOpen', hRest⟩ := ih hOpen (fun w' hw' => hMay w' (List.mem_cons_of_mem w hw'))
      (by rw [List.length_append]; omega) hInputs
    refine ⟨t, (run_of_step (M := core) ws.length hu).trans ht, ?_, hRest⟩
    rwa [messageOf_cons, ← List.append_assoc]

/-- FINAL publishes the digest of the open message. -/
theorem exec_final_openWith {n : Nat} {m : List Byte} {i : Instr} {s t : State} (hs : OpenWith n m s)
    (hFinal : isFinal i = true) (hAccess : isAccess i = true) (h : exec i s = .next t) :
    (t.phase = .done ∧ t.cnt.toNat = m.length ∧ t.st = md5state m) ∧ NoFlags t ∧ t.inputs = s.inputs ∧
      t.compressions = n + m.length / 64 + (if m.length % 64 ≤ 55 then 1 else 2) := by
  obtain ⟨hWf, hIdle, hp, hHolds, hClear, hCount⟩ := hs
  obtain ⟨hInit, hData, hRsvd⟩ := not_other_of_isFinal hFinal
  obtain ⟨u, hu, -, hInputs, -, -, hFinalCount, -⟩ := everyAccessCompletes i s hAccess hIdle
  obtain rfl : u = t := Host.Outcome.next.inj (hu.symm.trans h)
  refine ⟨exec_final_message hWf hHolds h hFinal hp, exec_noFlags h hInit hRsvd hp ?_ hClear, hInputs, ?_⟩
  · rw [messageBytes_of_not_data hData]
    exact cnt_le_maxLen s
  · rw [hFinalCount hFinal hp, hHolds.1, hCount]

/-- Settles O54: INIT opens the empty message, the accesses append their bytes, FINAL publishes. -/
theorem digestIsChunkingInvariant : Obligations.DigestIsChunkingInvariant := by
  intro s v0 v1 ws rest hWf hIdle hInit hFinal hMay hc hi
  obtain ⟨t0, h0, hExec0⟩ := step_access_next hIdle hi
  obtain ⟨hOpen0, hInputs0⟩ := exec_init_openWith
    (s := { s with inputs := ws.map Input.access ++ .access v1 :: rest }) hWf hIdle hInit hExec0
  obtain ⟨t1, h1, hOpen1, hInputs1⟩ := run_openWith ws hOpen0 hMay (by simpa using hc) hInputs0
  obtain ⟨t2, h2, hExec2⟩ := step_access_next hOpen1.2.1 hInputs1
  obtain ⟨⟨hPhase, hCnt, hDigest⟩, ⟨hLen, hSeq, hCmd⟩, hInputs2, hCount⟩ :=
    exec_final_openWith (s := { t1 with inputs := rest }) hOpen1 hFinal (isAccess_decodeHT v1) hExec2
  refine ⟨t2, ?_, hPhase, hCnt, hLen, hSeq, hCmd, hDigest, hInputs2, hCount⟩
  calc Host.Core.run core (ws.length + 2) s = Host.Core.run core (ws.length + 1) t0 := run_of_step (M := core) _ h0
    _ = Host.Core.run core 1 t1 := run_add 1 h1
    _ = .next t2 := run_of_step (M := core) 0 h2

end Sys2Proof.Machine
end

