-- ==== Sys2Proof/Proofs/HiddenState.lean ====
section
/-! PROOFS. Noninterference (10_state.md R41): two states that differ only in `WK`, `MW` and the stale bytes of `BUF` answer
a host alike, access by access. -/

namespace Sys2Proof.Machine

open Sys2Proof.Safety

/-! ### The hidden fields -/

/-- `s` with other contents in the fields a host cannot read. -/
def withHidden (s : State) (wk : Quad) (mw : Vector Word 16) (buf : Memory) (n : Nat) : State :=
  { s with wk := wk, mw := mw, buf := buf, compressions := n }

/-- The bytes of an open message's tail are the same in two buffers. -/
def TailAgrees (s : State) (buf : Memory) : Prop :=
  s.phase = .absorb → ∀ k : Fin 64, k.val < s.cnt.toNat % 64 → s.buf.read k = buf.read k

theorem sameToHost_withHidden {s : State} {wk : Quad} {mw : Vector Word 16} {buf : Memory} {n : Nat}
    (h : TailAgrees s buf) : SameToHost s (withHidden s wk mw buf n) :=
  ⟨rfl, rfl, rfl, rfl, rfl, rfl, rfl, rfl, rfl, h⟩

/-- A state the host cannot tell from `s` is `s` but for the hidden fields. -/
theorem eq_withHidden_of_sameToHost {s t : State} (h : SameToHost s t) :
    t = withHidden s t.wk t.mw t.buf t.compressions ∧ TailAgrees s t.buf := by
  obtain ⟨hSt, hCnt, hPhase, hLen, hSeq, hCmd, hEseq, hInputs, hRdata, hBuf⟩ := h
  refine ⟨?_, hBuf⟩
  rw [withHidden, hSt, hCnt, hPhase, hLen, hSeq, hCmd, hEseq, hInputs, hRdata]

theorem sameToHost_noResponse {s t : State} (h : SameToHost s t) : SameToHost (noResponse s) (noResponse t) := by
  obtain ⟨hSt, hCnt, hPhase, hLen, hSeq, hCmd, hEseq, hInputs, -, hBuf⟩ := h
  exact ⟨hSt, hCnt, hPhase, hLen, hSeq, hCmd, hEseq, hInputs, rfl, hBuf⟩

/-- A phase with no open computation asks nothing of the buffer. -/
theorem sameToHost_withPhase {s t : State} {p : Phase} (h : SameToHost s t) (hp : p ≠ .absorb) :
    SameToHost { s with phase := p } { t with phase := p } := by
  obtain ⟨hSt, hCnt, -, hLen, hSeq, hCmd, hEseq, hInputs, hRdata, -⟩ := h
  exact ⟨hSt, hCnt, rfl, hLen, hSeq, hCmd, hEseq, hInputs, hRdata, fun h => absurd h hp⟩

section
variable {s : State} {wk : Quad} {mw : Vector Word 16} {buf : Memory} {n : Nat}

theorem raiseError_withHidden (e : ErrorKind) :
    raiseError e (withHidden s wk mw buf n) = withHidden (raiseError e s) wk mw buf n := by
  cases e <;> rfl

theorem sameToHost_raiseError (e : ErrorKind) (h : TailAgrees s buf) :
    SameToHost (raiseError e s) (raiseError e (withHidden s wk mw buf n)) := by
  rw [raiseError_withHidden]
  refine sameToHost_withHidden ?_
  rwa [TailAgrees, raiseError_phase, raiseError_cnt, raiseError_buf]

theorem sameToHost_initOp : SameToHost (initOp s) (initOp (withHidden s wk mw buf n)) :=
  ⟨rfl, rfl, rfl, rfl, rfl, rfl, rfl, rfl, rfl, fun _ k hk => absurd hk (by simp)⟩

/-! ### Data writes -/

/-- The tail position moves on by one. -/
theorem cnt_succ_mod (c : BitVec 61) : (c + 1#61).toNat % 64 = (c.toNat + 1) % 64 := by
  rw [BitVec.toNat_add, BitVec.toNat_ofNat]
  omega

/-- The bytes below the new tail position are the old ones and the new byte, and a completed block is the same. -/
theorem sameToHost_absorbByte (b : Byte) (hs : s.buf.wf = true) (ht : buf.wf = true) (hp : s.phase = .absorb)
    (h : TailAgrees s buf) : SameToHost (absorbByte s b) (absorbByte (withHidden s wk mw buf n) b) := by
  set t := withHidden s wk mw buf n
  have hCnt : t.cnt = s.cnt := rfl
  have hRead (k : BufIdx) (hk : k.val ≤ s.cnt.toNat % 64) : (withByte s b).buf.read k = (withByte t b).buf.read k := by
    have hByte {u : State} (hu : u.buf.wf = true) := absorbByte_buf u b ▸ read_absorbByte b hu k
    refine (hByte hs).trans (Eq.trans ?_ (hByte ht).symm)
    by_cases hLast : k.val = s.cnt.toNat % 64
    · rw [if_pos hLast, hCnt, if_pos hLast]
    · rw [if_neg hLast, hCnt, if_neg hLast]
      exact h hp k (by omega)
  have hMod := cnt_succ_mod s.cnt
  rcases absorbByte_cases s b with ⟨hEnd, e⟩ | ⟨hEnd, e⟩
  · rcases absorbByte_cases t b with ⟨-, e'⟩ | ⟨hEnd', -⟩
    · have hBytes : (withByte s b).buf.bytes = (withByte t b).buf.bytes :=
        congrArg (List.map · (List.finRange 64)) (funext fun k => hRead k (by omega))
      rw [e, e', compress_eq, compress_eq, hBytes]
      exact ⟨rfl, rfl, rfl, rfl, rfl, rfl, rfl, rfl, rfl, fun _ k _ => hRead k (by omega)⟩
    · exact absurd hEnd hEnd'
  · rcases absorbByte_cases t b with ⟨hEnd', -⟩ | ⟨-, e'⟩
    · exact absurd hEnd' hEnd
    · rw [e, e']
      refine ⟨rfl, rfl, rfl, rfl, rfl, rfl, rfl, rfl, rfl, fun _ k hk => hRead k ?_⟩
      have hk' : k.val < (s.cnt + 1#61).toNat % 64 := hk
      omega

end

theorem sameToHost_absorbBytes (bs : List Byte) {s t : State} (hs : s.buf.wf = true) (ht : t.buf.wf = true)
    (hp : s.phase = .absorb) (h : SameToHost s t) : SameToHost (absorbBytes bs s) (absorbBytes bs t) := by
  induction bs generalizing s t with
  | nil => exact h
  | cons b bs ih =>
    obtain ⟨e, hTail⟩ := eq_withHidden_of_sameToHost h
    exact ih (absorbByte_wf b hs) (absorbByte_wf b ht) ((absorbByte_phase s b).trans hp)
      (e ▸ sameToHost_absorbByte b hs ht hp hTail)

theorem dataWrite_of_phase_ne (bs : List Byte) {s : State} (hp : s.phase ≠ .absorb) :
    dataWrite bs s = raiseError .seq s := by
  rcases dataWrite_cases bs s with ⟨-, e⟩ | ⟨h, -⟩ | ⟨h, -⟩
  · exact e
  all_goals exact absurd h hp

theorem dataWrite_of_overflow {bs : List Byte} {s : State} (hp : s.phase = .absorb)
    (hc : maxLen < s.cnt.toNat + bs.length) : dataWrite bs s = { raiseError .len s with phase := .failed } := by
  rcases dataWrite_cases bs s with ⟨h, -⟩ | ⟨-, -, e⟩ | ⟨-, h, -⟩
  · exact absurd hp h
  · exact e
  · exact absurd hc h.not_gt

section
variable {s : State} {wk : Quad} {mw : Vector Word 16} {buf : Memory} {n : Nat}

/-- A data write goes the same of the three ways. -/
theorem sameToHost_dataWrite (bs : List Byte) (hs : s.buf.wf = true) (ht : buf.wf = true) (h : TailAgrees s buf) :
    SameToHost (dataWrite bs s) (dataWrite bs (withHidden s wk mw buf n)) := by
  rcases dataWrite_cases bs s with ⟨hp, e⟩ | ⟨hp, hc, e⟩ | ⟨hp, hc, e⟩
  · rw [e, dataWrite_of_phase_ne (s := withHidden s wk mw buf n) bs hp]
    exact sameToHost_raiseError .seq h
  · rw [e, dataWrite_of_overflow (s := withHidden s wk mw buf n) hp hc]
    exact sameToHost_withPhase (sameToHost_raiseError .len h) (by decide)
  · rw [e, dataWrite_accepted (s := withHidden s wk mw buf n) hp hc]
    exact sameToHost_absorbBytes bs hs ht hp (sameToHost_withHidden h)

/-! ### FINAL -/

/-- FINAL reads the tail and none of the stale bytes. -/
theorem paddedBuffer_withHidden (hp : s.phase = .absorb) (h : TailAgrees s buf) :
    paddedBuffer (withHidden s wk mw buf n) = paddedBuffer s := by
  have hTail : bufferedTail (withHidden s wk mw buf n) = bufferedTail s := by
    refine List.ext_getElem? fun k => ?_
    rw [bufferedTail, bufferedTail, List.getElem?_take, List.getElem?_take]
    refine ite_congr rfl (fun hk => ?_) fun _ => rfl
    have hk' : k < s.cnt.toNat % 64 := hk
    exact (buf.getElem?_bytes ⟨k, by omega⟩).trans
      ((congrArg some (h hp ⟨k, by omega⟩ hk').symm).trans (s.buf.getElem?_bytes ⟨k, by omega⟩).symm)
  rw [paddedBuffer, hTail]
  rfl

theorem sameToHost_finalOp (hs : s.buf.wf = true) (ht : buf.wf = true) (h : TailAgrees s buf) :
    SameToHost (finalOp s) (finalOp (withHidden s wk mw buf n)) := by
  rcases finalOp_cases s with ⟨hp, e⟩ | ⟨hp, e⟩
  · rcases finalOp_cases (withHidden s wk mw buf n) with ⟨-, e'⟩ | ⟨hp', -⟩
    · rw [e, e']
      exact sameToHost_raiseError .seq h
    · exact absurd hp' hp
  · rcases finalOp_cases (withHidden s wk mw buf n) with ⟨hp', -⟩ | ⟨-, e'⟩
    · exact absurd hp hp'
    · obtain ⟨hCnt, -, hLen, hSeq, hCmd, hEseq, hInputs, hRdata⟩ := padAndCompress_frame s
      obtain ⟨hCnt', -, hLen', hSeq', hCmd', hEseq', hInputs', hRdata'⟩ := padAndCompress_frame (withHidden s wk mw buf n)
      obtain ⟨hSt, -⟩ := padAndCompress_blocks hs
      obtain ⟨hSt', -⟩ := padAndCompress_blocks (s := withHidden s wk mw buf n) ht
      rw [paddedBuffer_withHidden hp h] at hSt'
      rw [e, e']
      exact ⟨hSt.trans hSt'.symm, hCnt.trans hCnt'.symm, rfl, hLen.trans hLen'.symm, hSeq.trans hSeq'.symm,
        hCmd.trans hCmd'.symm, hEseq.trans hEseq'.symm, hInputs.trans hInputs'.symm, hRdata.trans hRdata'.symm,
        fun hAbsorb => by cases hAbsorb⟩

/-! ### Accesses and steps -/

/-- Every access: a read's value and an ignored access do not depend on the hidden fields by their definitions. -/
theorem exec_withHidden {i : Instr} (hAccess : isAccess i = true) (hs : s.buf.wf = true) (ht : buf.wf = true)
    (h : TailAgrees s buf) :
    ∃ s' t', exec i s = .next s' ∧ exec i (withHidden s wk mw buf n) = .next t' ∧ SameToHost s' t' := by
  cases i
  case unpack | accum | stepF | stepG | stepH | stepI | rcwRsvd02to03 | rcwRsvd04to07 | rcwRsvd08to0F | rcwRsvd10to1F |
    rcwRsvd20to3F | rcwRsvd40to7F | rcwRsvdC0toFF => cases hAccess
  case init => exact ⟨_, _, rfl, rfl, sameToHost_noResponse sameToHost_initOp⟩
  case final => exact ⟨_, _, rfl, rfl, sameToHost_noResponse (sameToHost_finalOp hs ht h)⟩
  case cmdRsvd3 | cmdRsvd4to7 | cmdRsvd8toF =>
    exact ⟨_, _, rfl, rfl, sameToHost_noResponse (sameToHost_raiseError .cmd h)⟩
  case dataW | dataB => exact ⟨_, _, rfl, rfl, sameToHost_noResponse (sameToHost_dataWrite _ hs ht h)⟩
  all_goals exact ⟨_, _, rfl, rfl, rfl, rfl, rfl, rfl, rfl, rfl, rfl, rfl, rfl, h⟩

end

theorem step_sameToHost {s t : State} (hs : s.buf.wf = true) (ht : t.buf.wf = true) (hQuiet : Quiet s)
    (h : SameToHost s t) : ∃ s' t', step s = .next s' ∧ step t = .next t' ∧ SameToHost s' t' := by
  obtain ⟨hIdle, hHost⟩ := hQuiet
  have hIdle' : t.eseq = .idle := by
    obtain ⟨-, -, -, -, -, -, hEseq, -⟩ := h
    exact hEseq ▸ hIdle
  have hInputs : s.inputs = t.inputs := by
    obtain ⟨-, -, -, -, -, -, -, hInputs, -⟩ := h
    exact hInputs
  cases hi : s.inputs with
  | nil => exact ⟨s, t, step_wait hIdle hi, step_wait hIdle' (hInputs ▸ hi), h⟩
  | cons x rest =>
    cases x with
    | reset =>
      exact ⟨_, _, step_reset hi, step_reset (hInputs ▸ hi), rfl, rfl, rfl, rfl, rfl, rfl, rfl, rfl, rfl, fun _ _ _ => rfl⟩
    | access v =>
      obtain ⟨e, hTail⟩ := eq_withHidden_of_sameToHost h
      obtain ⟨s', t', hs', ht', hSame⟩ := exec_withHidden (s := { s with inputs := rest }) (wk := t.wk) (mw := t.mw)
        (buf := t.buf) (n := t.compressions) (isAccess_decodeHT v) hs ht hTail
      refine ⟨s', t', (step_access hIdle hi).trans hs', (step_access hIdle' (hInputs ▸ hi)).trans (Eq.trans ?_ ht'), hSame⟩
      rw [e]
      rfl
    | control w => simp [hi, isHostInput] at hHost

/-- Settles O56: each step keeps the relation (`step_sameToHost`) and what it needs. -/
theorem hiddenStateUnobservable : Obligations.HiddenStateUnobservable := by
  intro n
  induction n with
  | zero => exact fun s t _ _ _ h => ⟨s, t, rfl, rfl, h⟩
  | succ n ih =>
    intro s t hs ht hQuiet h
    obtain ⟨s', t', hs', ht', hSame⟩ := step_sameToHost hs ht hQuiet h
    obtain ⟨s'', t'', hRun, hRun', hSame'⟩ := ih s' t' (stepKeepsBufferCanonical s s' hs hs')
      (stepKeepsBufferCanonical t t' ht ht') (step_keeps_quiet hQuiet hs') hSame
    exact ⟨s'', t'', (run_of_step (M := core) n hs').trans hRun, (run_of_step (M := core) n ht').trans hRun', hSame'⟩

end Sys2Proof.Machine
end
